-- ==== Sys2Proof/Word.lean ====
section
/-! DEFINITION. The word types of BDS: what the spec treats as bits. -/

namespace Sys2Proof

/-- A register, a command word or a pixel word: 32 bits (10_state.md R21; 20_memory.md R62; 30_encoding.md R100). -/
abbrev Word := BitVec 32

/-- One unit of OUT: 16 bits (20_memory.md R70). -/
abbrev OutUnit := BitVec 16

/-- An 8-bit dot mask, in internal order or in ISO order (30_encoding.md R91, R92). -/
abbrev DotMask := BitVec 8

/-- One location of the glyph ROM: 24 bits (20_memory.md R67). -/
abbrev GromWord := BitVec 24

end Sys2Proof
end

