-- ==== Sys2Proof/Syntax.lean ====
section
/-! DEFINITION. The seven commands (30_encoding.md R104; spec/opcode_table.json). -/

namespace Sys2Proof

/-- One constructor per row of the opcode table. -/
inductive Instr where
  /-- `TOSTD imm8` (40_cell_encoder.md R134). -/
  | tostd (m : DotMask)
  /-- `TOINT imm8` (40_cell_encoder.md R135). -/
  | toint (s : DotMask)
  /-- `GLYPH imm8` (40_cell_encoder.md R136). -/
  | glyph (m : DotMask)
  /-- `DOTBIT imm3` (40_cell_encoder.md R137): a dot position, "0..7" checked by WellFormed. -/
  | dotbit (p : Nat)
  /-- `SAMPLE` (41_dot_sampler.md R172). -/
  | sample
  /-- `CELL` (41_dot_sampler.md R176). -/
  | cell
  /-- `FRAME` (42_frame.md R204). -/
  | frame
  deriving DecidableEq, Repr

end Sys2Proof
end

