-- ==== Sys2Proof/WellFormed.lean ====
section
/-! DEFINITION. Which terms of `Instr` are commands: the one operand bound is `DOTBIT`'s. -/

namespace Sys2Proof

/-- "A position above 7 cannot be written in 3 bits" (40_cell_encoder.md R137); every 8-bit operand is
valid (R130), and the N-format commands have no operand (30_encoding.md R101). -/
def Instr.wellFormed : Instr → Bool
  | .tostd _ => true
  | .toint _ => true
  | .glyph _ => true
  | .dotbit p => decide (p < 8)
  | .sample => true
  | .cell => true
  | .frame => true

end Sys2Proof
end

