-- ==== Sys2Proof/Decode.lean ====
section
/-! DEFINITION. Decoding a command word (30_encoding.md R100 to R112), total on all 2^32 words, and
the encoder. -/

namespace Sys2Proof

/-- Why a word is illegal: the clauses of 30_encoding.md R110, the first that applies. -/
inductive IllegalWord where
  | hiNotZero
  | zNotZero
  | noSuchOp
  | dotbitImmHigh
  | immNotZero
  deriving DecidableEq, Repr

/-- "every word is one of the seven commands or is illegal" (30_encoding.md R111). -/
inductive Decoded where
  | ok (i : Instr)
  | illegal (why : IllegalWord)
  deriving DecidableEq, Repr

/-- The fields of a command word (30_encoding.md R100). -/
def fieldHi (d : Word) : BitVec 16 := d.extractLsb' 16 16
def fieldOp (d : Word) : BitVec 4 := d.extractLsb' 12 4
def fieldZ (d : Word) : BitVec 4 := d.extractLsb' 8 4
def fieldImm (d : Word) : BitVec 8 := d.extractLsb' 0 8
def fieldImmHigh (d : Word) : BitVec 5 := d.extractLsb' 3 5
def fieldImm3 (d : Word) : BitVec 3 := d.extractLsb' 0 3

/-- An N-format word: its immediate must be 0 (30_encoding.md R101). -/
def decodeNFormat (i : Instr) (d : Word) : Decoded :=
  if fieldImm d = 0 then .ok i else .illegal .immNotZero

/-- Decode one command word (30_encoding.md R104, R110). -/
def decode (d : Word) : Decoded :=
  if fieldHi d ≠ 0 then .illegal .hiNotZero
  else if fieldZ d ≠ 0 then .illegal .zNotZero
  else
    match (fieldOp d).toNat with
    | 1 => .ok (.tostd (fieldImm d))
    | 2 => .ok (.toint (fieldImm d))
    | 3 => .ok (.glyph (fieldImm d))
    | 4 => if fieldImmHigh d = 0 then .ok (.dotbit (fieldImm3 d).toNat) else .illegal .dotbitImmHigh
    | 5 => decodeNFormat .sample d
    | 6 => decodeNFormat .cell d
    | 7 => decodeNFormat .frame d
    | _ => .illegal .noSuchOp

/-- The instruction a word decodes to, if any. -/
def Decoded.instr? : Decoded → Option Instr
  | .ok i => some i
  | .illegal _ => none

/-- The host's question: the low `nbits` bits of `w` are one command word, the rest is 0. A command has
32 bits (30_encoding.md R100), so a number that needs more is no command. -/
def decodeTableWord (nbits w : Nat) : Option Instr :=
  if w % 2 ^ nbits < 2 ^ 32 then (decode (BitVec.ofNat 32 (w % 2 ^ nbits))).instr? else none

/-- Lay out the fields `op` and `imm` with `hi` and `z` zero (30_encoding.md R100). -/
def layout (op : BitVec 4) (imm : BitVec 8) : Word := (op.setWidth 32 <<< 12) ||| imm.setWidth 32

/-- The word of a well-formed command (30_encoding.md R104). -/
def encode : Instr → Word
  | .tostd m => layout 1#4 m
  | .toint s => layout 2#4 s
  | .glyph m => layout 3#4 m
  | .dotbit p => layout 4#4 (BitVec.ofNat 8 p)
  | .sample => layout 5#4 0#8
  | .cell => layout 6#4 0#8
  | .frame => layout 7#4 0#8

/-- The `mask` column of the opcode table (30_encoding.md R104; spec/opcode_table.json). -/
def rowMask : Instr → Word
  | .tostd _ => 0xFFFFFF00
  | .toint _ => 0xFFFFFF00
  | .glyph _ => 0xFFFFFF00
  | .dotbit _ => 0xFFFFFFF8
  | .sample => 0xFFFFFFFF
  | .cell => 0xFFFFFFFF
  | .frame => 0xFFFFFFFF

/-- The `match` column of the opcode table (30_encoding.md R104; spec/opcode_table.json). -/
def rowMatch : Instr → Word
  | .tostd _ => 0x00001000
  | .toint _ => 0x00002000
  | .glyph _ => 0x00003000
  | .dotbit _ => 0x00004000
  | .sample => 0x00005000
  | .cell => 0x00006000
  | .frame => 0x00007000

end Sys2Proof
end

