-- ==== Sys2Proof/Config.lean ====
section
/-! DEFINITION. The parameters of 00_scope.md R9 and the free values the spec leaves open. -/

namespace Sys2Proof.Config

/-- What a dot of total weight 0 decides (00_scope.md R9 `DEGEN_POLICY`; 41_dot_sampler.md R170). -/
inductive DegenPolicy where
  | off
  | darkness0
  deriving DecidableEq, Repr

/-- The parameters of 00_scope.md R9, fixed for one instance of BDS. `XW` is fixed at its default 32
(DESIGN CHOICE, log 1, safe: the spec lets a model fix a parameter at its default). -/
structure Params where
  cw : Nat
  sw : Nat
  ft : Nat
  fe : Nat
  ew : Nat
  degenPolicy : DegenPolicy
  frameDimcheck : Bool
  deriving DecidableEq, Repr

/-- The defaults of 00_scope.md R9. -/
def defaults : Params :=
  { cw := 16, sw := 8, ft := 16, fe := 8, ew := 16, degenPolicy := .off, frameDimcheck := true }

/-- The constraint column of 00_scope.md R9. "must hold rule R12" of `XW` is read as: the largest
`SCALED_H` (never below the largest `SCALED_W`) is below 2^32 (DEDUCED, log 13, safe). -/
def Params.legal (p : Params) : Bool :=
  decide (1 ≤ p.cw) && decide (p.cw ≤ 16) && decide (1 ≤ p.sw) && decide (1 ≤ p.ft) &&
    decide (p.fe + 1 ≤ p.ew) &&
    decide ((4 * (2 ^ p.cw - 1) + (2 ^ p.sw - 1) * (2 ^ p.cw - 2)) * 3 - 1 < 2 ^ 32)

/-- FREE VALUE (log 3, safe): the word at the pixel (x, y) that the host has not defined, during the
command whose number is the first argument (20_memory.md R66, "any 32-bit value"). -/
opaque freePixel : Nat → Nat → Nat → Word

/-- FREE VALUE (log 4, safe): the unit a host read of OUT location k returns when it holds no value
(20_memory.md R71); the first argument tells two reads apart. -/
opaque freeOut : Nat → Nat → OutUnit

end Sys2Proof.Config
end

