-- ==== Sys2Proof/Machine/State.lean ====
section
/-! DEFINITION. The state of one BDS instance (10_state.md R20, R22; 20_memory.md R70), the host's side
of it that a step reads, the reasons to stop, and the state after reset (70_reset_and_hazards.md R260). -/

namespace Sys2Proof.Machine

/-- The nineteen registers, in index order 0x00 to 0x12 (10_state.md R22). -/
inductive Reg where
  | cmd | status | cfgW | cfgH | cfgT | cfgL | cfgTheta | cfgEdge | imgW | imgH
  | xs | ys | row | col | res | mask | scaledW | scaledH | outlen
  deriving DecidableEq, Repr

/-- The twelve RW registers: each stores all 32 bits written to it (10_state.md R21, R22). -/
structure RwRegs where
  cfgW : Word
  cfgH : Word
  cfgT : Word
  cfgL : Word
  cfgTheta : Word
  cfgEdge : Word
  imgW : Word
  imgH : Word
  xs : Word
  ys : Word
  row : Word
  col : Word
  deriving DecidableEq, Repr

/-- OUT: the units that hold a value, by index, indexes strictly rising (20_memory.md R70, R71).
An unlisted index holds no value. -/
abbrev OutSpace := List (Nat × OutUnit)

/-- PIX: the pixel words the host has defined, by (x, y), in raster order (20_memory.md R61, R66). -/
abbrev PixSpace := List ((Nat × Nat) × Word)

/-- One transaction of the host (00_scope.md R18; 10_state.md R48, R49; 20_memory.md R64, R74;
70_reset_and_hazards.md R260). -/
inductive HostOp where
  /-- Register read at an 8-bit index (10_state.md R48). -/
  | regRead (a : BitVec 8)
  /-- Register write at an 8-bit index; index 0 issues a command (10_state.md R49, R23). -/
  | regWrite (a : BitVec 8) (d : Word)
  /-- Read of the OUT unit at index k, through the host's own port (20_memory.md R74). -/
  | outRead (k : Nat)
  /-- The host defines the pixel word at (x, y) of the buffer it owns (20_memory.md R64, R81). -/
  | pixWrite (x y : Nat) (p : Word)
  /-- The host releases its pixel buffer: nothing in it is defined any more (20_memory.md R85). -/
  | pixRelease
  /-- The reset input (70_reset_and_hazards.md R260). -/
  | reset
  deriving DecidableEq, Repr

/-- What a read returned to the host. -/
inductive HostReply where
  | reg (d : Word)
  | out (u : OutUnit)
  deriving DecidableEq, Repr

/-- The machine. `rw`, `status`, `res`, `mask`, `outlen` and `out` are BDS's state (10_state.md R20);
`params` are its parameters (00_scope.md R9, log 1); `pix` is the host's buffer (log 2); `host`,
`replies` and `fresh` are the model's own (log 5, 6, 3). -/
structure State where
  rw : RwRegs
  status : Word
  res : BitVec 16
  mask : DotMask
  outlen : Word
  out : OutSpace
  params : Config.Params
  pix : PixSpace
  host : List HostOp
  replies : List HostReply
  fresh : Nat
  deriving DecidableEq, Repr

/-- Why a step can stop. -/
inductive Fault where
  /-- Raised by a host read of OUT at an index above 2^32 - 2, which is no location of OUT
  (20_memory.md R70): safe, the spec gives such a read no result (log 14). -/
  | noSuchOutLocation
  deriving DecidableEq, Repr

/-- Why an instruction can have no meaning. -/
inductive Refusal where
  /-- Raised by an arm of `exec` whose instruction is not modelled yet: safe. No arm is. -/
  | notModelled (mnemonic : String)
  deriving DecidableEq, Repr

/-- Every RW register is 0 after reset (70_reset_and_hazards.md R260). -/
def RwRegs.reset : RwRegs :=
  { cfgW := 0, cfgH := 0, cfgT := 0, cfgL := 0, cfgTheta := 0, cfgEdge := 0,
    imgW := 0, imgH := 0, xs := 0, ys := 0, row := 0, col := 0 }

/-- The machine right after reset (70_reset_and_hazards.md R260, R261), at the default parameters
(00_scope.md R9), with no pixel defined and no transaction pending (DESIGN CHOICE, log 17). -/
def State.reset : State :=
  { rw := RwRegs.reset, status := 0, res := 0, mask := 0, outlen := 0, out := [],
    params := Config.defaults, pix := [], host := [], replies := [], fresh := 0 }

end Sys2Proof.Machine
end

