-- ==== Sys2Proof/Machine/Flags.lean ====
section
/-! DEFINITION. The `STATUS` word: its fields and the two ways a command changes it
(10_state.md R24; 60_exceptions.md R221, R224, R225). -/

namespace Sys2Proof.Machine

/-- The four conditions that end a command (60_exceptions.md R221). -/
inductive ErrCode where
  | illCmd
  | cfgErr
  | dimErr
  | rangeErr
  deriving DecidableEq, Repr

/-- The value `LAST` takes (60_exceptions.md R221, column code). -/
def ErrCode.code : ErrCode → Nat
  | .illCmd => 1
  | .cfgErr => 2
  | .dimErr => 3
  | .rangeErr => 4

/-- The sticky bit (60_exceptions.md R221, column sticky bit). -/
def ErrCode.stickyBit : ErrCode → Nat
  | .illCmd => 8
  | .cfgErr => 9
  | .dimErr => 10
  | .rangeErr => 11

/-- The bit of `S_DEGEN` (10_state.md R24). -/
def degenStickyBit : Nat := 12

/-- Fields of `STATUS` (10_state.md R24). -/
def statusBusy (w : Word) : Bool := w.getLsbD 0
def statusLast (w : Word) : BitVec 3 := w.extractLsb' 1 3
def statusLastDegen (w : Word) : Bool := w.getLsbD 4
def statusSticky (e : ErrCode) (w : Word) : Bool := w.getLsbD e.stickyBit
def statusSDegen (w : Word) : Bool := w.getLsbD degenStickyBit

/-- `STATUS` with `LAST` and `LASTDEGEN` cleared: every command overwrites both (10_state.md R24). -/
def statusCleared (w : Word) : Word := w &&& 0xFFFFFFE1#32

/-- `STATUS` after `raise e`: `LAST` is the code, `LASTDEGEN` is 0, the sticky bit is set
(60_exceptions.md R224). -/
def statusRaise (e : ErrCode) (w : Word) : Word :=
  statusCleared w ||| BitVec.ofNat 32 (2 * e.code) ||| (1#32 <<< e.stickyBit)

/-- `STATUS` after a command completes: `LAST` is 0, `LASTDEGEN` is its degenerate bit, and `S_DEGEN` is
set if that bit is 1 (60_exceptions.md R225). -/
def statusComplete (degen : Bool) (w : Word) : Word :=
  if degen then statusCleared w ||| (1#32 <<< 4) ||| (1#32 <<< degenStickyBit) else statusCleared w

end Sys2Proof.Machine
end

