-- ==== Sys2Proof/Machine/Operands.lean ====
section
/-! DEFINITION. Operand forms: the two bit orders of a mask, immediates, the configuration checks and
the geometry read from the configuration registers. -/

namespace Sys2Proof.Machine

/-- `ToStd(m) = (m & 0x87) | ((m & 0x70) >> 1) | ((m & 0x08) << 3)` (40_cell_encoder.md R131). -/
def toStd (m : DotMask) : DotMask :=
  (m &&& 0x87#8) ||| ((m &&& 0x70#8) >>> 1) ||| ((m &&& 0x08#8) <<< 3)

/-- `ToInt(s) = (s & 0x87) | ((s & 0x38) << 1) | ((s & 0x40) >> 3)` (40_cell_encoder.md R132). -/
def toInt (s : DotMask) : DotMask :=
  (s &&& 0x87#8) ||| ((s &&& 0x38#8) <<< 1) ||| ((s &&& 0x40#8) >>> 3)

/-- `zext_16` (00_scope.md R13). -/
def zext16 (m : DotMask) : BitVec 16 := m.setWidth 16

/-- `zext_32` of a stored value, as a register read returns it (10_state.md R48). -/
def zext32 {n : Nat} (v : BitVec n) : Word := v.setWidth 32

/-- One dot as an 8-bit mask: `1 << p` (40_cell_encoder.md R137). -/
def dotMask (p : Nat) : DotMask := 1#8 <<< p

/-- A decision bit as a 16-bit result (41_dot_sampler.md R172). -/
def bit16 (b : Bool) : BitVec 16 := if b then 1 else 0

/-- `GBASE`, `CR`, `LF` (00_scope.md R10); the values of `CR` and `LF` are general knowledge in the spec
itself (30_encoding.md R96; PRESUMED, log 12, unsafe). -/
def glyphBase : BitVec 16 := 0x2800
def unitCR : OutUnit := 0x000D
def unitLF : OutUnit := 0x000A

/-- `LR`, `LG`, `LB` and `K` (00_scope.md R10). -/
def lumaR : Nat := 2126
def lumaG : Nat := 7152
def lumaB : Nat := 722
def darknessMax : Nat := 2550000

/-- `GeomValid`: the first four clauses of `CfgValid` (10_state.md R43). -/
def geomValid (p : Config.Params) (r : RwRegs) : Bool :=
  decide (1 ≤ r.cfgW.toNat) && decide (r.cfgW.toNat ≤ 2 ^ p.cw - 1) &&
    decide (1 ≤ r.cfgH.toNat) && decide (r.cfgH.toNat ≤ 2 ^ p.cw - 1) &&
    decide (r.cfgT.toNat ≤ 2 ^ p.sw - 1) && decide (r.cfgL.toNat ≤ 2 ^ p.sw - 1)

/-- `CfgValid` (10_state.md R43). -/
def cfgValid (p : Config.Params) (r : RwRegs) : Bool :=
  geomValid p r && decide (r.cfgTheta.toNat ≤ 2 ^ p.ft) && decide (r.cfgEdge.toNat ≤ 2 ^ p.ew - 1)

/-- `SCALED_W` and `SCALED_H` in ℤ (42_frame.md R200), 0 when `GeomValid` is false (10_state.md R39). -/
def scaledW (p : Config.Params) (r : RwRegs) : Nat :=
  if geomValid p r then (2 * r.cfgW.toNat + r.cfgT.toNat * (r.cfgW.toNat - 1)) * 3 - 1 else 0
def scaledH (p : Config.Params) (r : RwRegs) : Nat :=
  if geomValid p r then (4 * r.cfgH.toNat + r.cfgL.toNat * (r.cfgH.toNat - 1)) * 3 - 1 else 0

/-- `CELL`'s range check: `ROW < CFG_H` and `COL < CFG_W` (10_state.md R36). -/
def cellInRange (r : RwRegs) : Bool :=
  decide (r.row.toNat < r.cfgH.toNat) && decide (r.col.toNat < r.cfgW.toNat)

/-- `FRAME`'s dimension check (42_frame.md R203). -/
def frameDimsOk (p : Config.Params) (r : RwRegs) : Bool :=
  !p.frameDimcheck || (decide (r.imgW.toNat = scaledW p r) && decide (r.imgH.toNat = scaledH p r))

/-- The origin of cell (r, c) in scaled-pixel space (41_dot_sampler.md R174). -/
def cellX0 (r : RwRegs) (c : Nat) : Nat := c * (6 + 3 * r.cfgT.toNat)
def cellY0 (r : RwRegs) (row : Nat) : Nat := row * (12 + 3 * r.cfgL.toNat)

/-- The in-bounds test, in ℤ (41_dot_sampler.md R163). -/
def inBounds (r : RwRegs) (x y : Int) : Bool :=
  decide (0 ≤ x) && decide (x < (r.imgW.toNat : Int)) && decide (0 ≤ y) &&
    decide (y < (r.imgH.toNat : Int))

end Sys2Proof.Machine
end

