-- ==== Sys2Proof/Machine/Ops.lean ====
section
/-! DEFINITION. The named operations over the spaces and the registers: sparse storage, PIX, GROM, OUT,
the register map, `raise` and completion, and the reset input. -/

namespace Sys2Proof.Machine

/-! ### Sparse storage: a list of (key, value) in strictly rising key order -/

/-- The value listed at a key. -/
def sparseGet {κ α : Type} [DecidableEq κ] (k : κ) : List (κ × α) → Option α
  | [] => none
  | (k', v) :: l => if k = k' then some v else sparseGet k l

/-- Write a value at a key, keeping the keys strictly rising in the order `lt`. -/
def sparseSet {κ α : Type} [DecidableEq κ] (lt : κ → κ → Bool) (k : κ) (v : α) :
    List (κ × α) → List (κ × α)
  | [] => [(k, v)]
  | (k', v') :: l =>
    if k = k' then (k, v) :: l
    else if lt k k' then (k, v) :: (k', v') :: l
    else (k', v') :: sparseSet lt k v l

/-- The canonical form: keys strictly rising. -/
abbrev sparseSorted {κ α : Type} (lt : κ → κ → Bool) (l : List (κ × α)) : Prop :=
  l.Pairwise fun a b => lt a.1 b.1 = true

/-- Index order of OUT. -/
def indexLt (a b : Nat) : Bool := decide (a < b)

/-- Raster order of PIX: by row y, then by column x. -/
def rasterLt (a b : Nat × Nat) : Bool := decide (a.2 < b.2) || (decide (a.2 = b.2) && decide (a.1 < b.1))

/-- Both sparse spaces are in canonical form. -/
abbrev Memory.wf (s : State) : Prop := sparseSorted indexLt s.out ∧ sparseSorted rasterLt s.pix

/-! ### PIX, GROM and OUT -/

/-- The word at the in-bounds pixel (x, y): what the host defined there, else a free value, the same for
every read of (x, y) during one command (20_memory.md R62, R64, R66; log 3). -/
def pixWord (s : State) (x y : Nat) : Word :=
  (sparseGet (x, y) s.pix).getD (Config.freePixel s.fresh x y)

/-- The channels of a pixel word: bits 31:24 are ignored (20_memory.md R62). -/
def pixR (p : Word) : Nat := (p.extractLsb' 16 8).toNat
def pixG (p : Word) : Nat := (p.extractLsb' 8 8).toNat
def pixB (p : Word) : Nat := (p.extractLsb' 0 8).toNat

/-- A 24-bit entry from its fields: `mask[23:16] || cp[15:0]` (20_memory.md R67; 30_encoding.md R97). -/
def gromPack (mask : DotMask) (cp : BitVec 16) : GromWord := (mask.setWidth 24 <<< 16) ||| cp.setWidth 24

/-- The content of the glyph ROM: the entry at location k holds k and its code point `0x2800 + ToStd(k)`
(20_memory.md R67 to R69). -/
def gromWord (k : DotMask) : GromWord := gromPack k (glyphBase + zext16 (toStd k))

/-- What `GromRead` returns: the two fields of an entry (20_memory.md R68). -/
structure GromEntry where
  mask : DotMask
  cp : BitVec 16
  deriving DecidableEq, Repr

/-- The fields of a 24-bit entry: `mask` in bits 23:16, `cp` in bits 15:0 (20_memory.md R67). -/
def gromFields (e : GromWord) : GromEntry := { mask := e.extractLsb' 16 8, cp := e.extractLsb' 0 16 }

/-- `GromRead(k)`: one read moves one entry, and returns its fields (20_memory.md R68, R78). -/
def gromRead (k : DotMask) : GromEntry := gromFields (gromWord k)

/-- How many locations OUT has: 0 ≤ k ≤ 2^32 - 2 (20_memory.md R70). -/
def outLocations : Nat := 2 ^ 32 - 1

/-- `OutWrite(k, u)` (20_memory.md R72). -/
def outWrite (k : Nat) (u : OutUnit) (o : OutSpace) : OutSpace := sparseSet indexLt k u o

/-- The unit at an OUT location, or no value (20_memory.md R71). -/
def outGet (k : Nat) (o : OutSpace) : Option OutUnit := sparseGet k o

/-- The host defines a pixel (20_memory.md R64). -/
def pixWrite (x y : Nat) (p : Word) (s : State) : State :=
  { s with pix := sparseSet rasterLt (x, y) p s.pix }

/-! ### Results and outcome of a command -/

/-- `RES <- v` (10_state.md R37). -/
def setRes (v : BitVec 16) (s : State) : State := { s with res := v }

/-- `MASK <- m` (10_state.md R38). -/
def setMask (m : DotMask) (s : State) : State := { s with mask := m }

/-- `raise e`, the one way a command ends in an error: `STATUS` as 60_exceptions.md R224 says and nothing
else; control goes nowhere. There is no return from it (R235). -/
def raise (e : ErrCode) (s : State) : State := { s with status := statusRaise e s.status }

/-- Completion with a degenerate bit (60_exceptions.md R225). -/
def complete (degen : Bool) (s : State) : State := { s with status := statusComplete degen s.status }

/-- The command that sampled is over: undefined pixels may read differently from now on (log 3). -/
def advanceFresh (s : State) : State := { s with fresh := s.fresh + 1 }

/-! ### The register map -/

/-- The registers in index order (10_state.md R22). -/
def regMap : List Reg :=
  [.cmd, .status, .cfgW, .cfgH, .cfgT, .cfgL, .cfgTheta, .cfgEdge, .imgW, .imgH,
   .xs, .ys, .row, .col, .res, .mask, .scaledW, .scaledH, .outlen]

/-- The register at an index; none for the reserved 0x13 to 0xFF (10_state.md R22, R50). -/
def regAt (a : BitVec 8) : Option Reg := regMap[a.toNat]?

/-- What a host read of a register returns (10_state.md R48). -/
def readReg (s : State) : Reg → Word
  | .cmd => 0
  | .status => s.status
  | .cfgW => s.rw.cfgW
  | .cfgH => s.rw.cfgH
  | .cfgT => s.rw.cfgT
  | .cfgL => s.rw.cfgL
  | .cfgTheta => s.rw.cfgTheta
  | .cfgEdge => s.rw.cfgEdge
  | .imgW => s.rw.imgW
  | .imgH => s.rw.imgH
  | .xs => s.rw.xs
  | .ys => s.rw.ys
  | .row => s.rw.row
  | .col => s.rw.col
  | .res => zext32 s.res
  | .mask => zext32 s.mask
  | .scaledW => BitVec.ofNat 32 (scaledW s.params s.rw)
  | .scaledH => BitVec.ofNat 32 (scaledH s.params s.rw)
  | .outlen => s.outlen

/-- The word a host read of index `a` returns; a reserved index reads 0 (10_state.md R48, R50). -/
def readIndex (s : State) (a : BitVec 8) : Word :=
  match regAt a with
  | some r => readReg s r
  | none => 0

/-- A host write of a register other than `CMD`: an RW register takes all 32 bits, an RO register ignores
it (10_state.md R21, R49). -/
def writeReg (r : Reg) (d : Word) (w : RwRegs) : RwRegs :=
  match r with
  | .cmd => w
  | .status => w
  | .cfgW => { w with cfgW := d }
  | .cfgH => { w with cfgH := d }
  | .cfgT => { w with cfgT := d }
  | .cfgL => { w with cfgL := d }
  | .cfgTheta => { w with cfgTheta := d }
  | .cfgEdge => { w with cfgEdge := d }
  | .imgW => { w with imgW := d }
  | .imgH => { w with imgH := d }
  | .xs => { w with xs := d }
  | .ys => { w with ys := d }
  | .row => { w with row := d }
  | .col => { w with col := d }
  | .res => w
  | .mask => w
  | .scaledW => w
  | .scaledH => w
  | .outlen => w

/-- A host write at an index other than `CMD`'s; a reserved index ignores it (10_state.md R49, R50). -/
def writeIndex (a : BitVec 8) (d : Word) (s : State) : State :=
  match regAt a with
  | some r => { s with rw := writeReg r d s.rw }
  | none => s

/-! ### The reset input -/

/-- Reset puts every register at its reset value and empties OUT; PIX is the host's and is not touched;
the parameters are the instance's (70_reset_and_hazards.md R260, R261). -/
def hardReset (s : State) : State :=
  { State.reset with
    params := s.params, pix := s.pix, host := s.host, replies := s.replies, fresh := s.fresh }

end Sys2Proof.Machine
end

