-- ==== Sys2Proof/Machine/CellEncoder.lean ====
section
/-! DEFINITION. The cell-encoder group `TOSTD`, `TOINT`, `GLYPH`, `DOTBIT` (40_cell_encoder.md). All four
complete in every state (R138). -/

namespace Sys2Proof.Machine

/-- `TOSTD` (40_cell_encoder.md R134). -/
def execTostd (m : DotMask) (s : State) : Host.Outcome State Fault Refusal :=
  .next (complete false (setRes (zext16 (toStd m)) s))

/-- `TOINT` (40_cell_encoder.md R135). -/
def execToint (m : DotMask) (s : State) : Host.Outcome State Fault Refusal :=
  .next (complete false (setRes (zext16 (toInt m)) s))

/-- `GLYPH` (40_cell_encoder.md R136). -/
def execGlyph (m : DotMask) (s : State) : Host.Outcome State Fault Refusal :=
  .next (complete false (setMask (gromRead m).mask (setRes (gromRead m).cp s)))

/-- `DOTBIT` (40_cell_encoder.md R137). -/
def execDotbit (p : Nat) (s : State) : Host.Outcome State Fault Refusal :=
  .next (complete false (setRes (zext16 (dotMask p)) s))

end Sys2Proof.Machine
end

