-- ==== Sys2Proof/Machine/DotSampler.lean ====
section
/-! DEFINITION. The dot sampler: `Sample`, `Cell`, and the commands `SAMPLE` and `CELL`
(41_dot_sampler.md). -/

namespace Sys2Proof.Machine

/-! ### One pixel -/

/-- `Y(R,G,B) = 2126*R + 7152*G + 722*B` (41_dot_sampler.md R161). -/
def luma (p : Word) : Nat := lumaR * pixR p + lumaG * pixG p + lumaB * pixB p

/-- `Dk(R,G,B) = 2550000 - Y` (41_dot_sampler.md R161); `Y` never exceeds 2550000. -/
def darkness (p : Word) : Nat := darknessMax - luma p

/-! ### The neighbourhood of one dot -/

/-- The offsets of one axis (41_dot_sampler.md R162). -/
def offsets : List Int := [-1, 0, 1, 2]

/-- The 16 offsets (dx, dy), in the order of the pseudocode (41_dot_sampler.md R162, R171). -/
def neighbourhood : List (Int × Int) := offsets.flatMap fun dy => offsets.map fun dx => (dx, dy)

/-- Core or rim (41_dot_sampler.md R164). -/
def isCore (o : Int × Int) : Bool := (o.1 == 0 || o.1 == 1) && (o.2 == 0 || o.2 == 1)

/-- The four accumulators (41_dot_sampler.md R165). -/
structure DotAcc where
  sc : Nat
  sr : Nat
  nc : Nat
  nr : Nat
  deriving DecidableEq, Repr

/-- "All four start at 0 for every dot" (41_dot_sampler.md R165). -/
def accZero : DotAcc := { sc := 0, sr := 0, nc := 0, nr := 0 }

/-- The inner step of `Sample`: an out-of-bounds pixel is skipped (41_dot_sampler.md R163, R171). -/
def addPixel (s : State) (xs ys : Nat) (a : DotAcc) (o : Int × Int) : DotAcc :=
  let x := (xs : Int) + o.1
  let y := (ys : Int) + o.2
  if inBounds s.rw x y then
    let d := darkness (pixWord s x.toNat y.toNat)
    if isCore o then { a with sc := a.sc + d, nc := a.nc + 1 }
    else { a with sr := a.sr + d, nr := a.nr + 1 }
  else a

/-- The accumulators of the dot at anchor (xs, ys) (41_dot_sampler.md R165, R171). -/
def accumulate (s : State) (xs ys : Nat) : DotAcc := neighbourhood.foldl (addPixel s xs ys) accZero

/-! ### The decision -/

/-- `NUM = 2^FE * Sc + EDGE * Sr` (41_dot_sampler.md R166). -/
def num (fe edge : Nat) (a : DotAcc) : Nat := 2 ^ fe * a.sc + edge * a.sr

/-- `DEN = 2^FE * Nc + EDGE * Nr` (41_dot_sampler.md R166). -/
def den (fe edge : Nat) (a : DotAcc) : Nat := 2 ^ fe * a.nc + edge * a.nr

/-- The pair of bits `Sample` returns (41_dot_sampler.md R171). -/
structure Dot where
  on : Bool
  degen : Bool
  deriving DecidableEq, Repr

/-- Decide a dot from its accumulators: the degenerate policy (41_dot_sampler.md R170), else the exact
integer comparison (R168). -/
def decideDot (p : Config.Params) (theta edge : Nat) (a : DotAcc) : Dot :=
  if den p.fe edge a = 0 then
    match p.degenPolicy with
    | .off => { on := false, degen := true }
    | .darkness0 => { on := decide (theta = 0), degen := true }
  else
    { on := decide (theta * darknessMax * den p.fe edge a ≤ num p.fe edge a * 2 ^ p.ft), degen := false }

/-- `Sample(xs, ys)` (41_dot_sampler.md R171). -/
def sampleDot (s : State) (xs ys : Nat) : Dot :=
  decideDot s.params s.rw.cfgTheta.toNat s.rw.cfgEdge.toNat (accumulate s xs ys)

/-! ### One cell -/

/-- The dot positions (col, row) in internal bit order (30_encoding.md R91; 41_dot_sampler.md R177). -/
def dotPositions : List (Nat × Nat) := [(0, 0), (0, 1), (0, 2), (0, 3), (1, 0), (1, 1), (1, 2), (1, 3)]

/-- The internal bit of the dot at (col, row): `row + col*4` (30_encoding.md R91). -/
def internalBit (p : Nat × Nat) : Nat := p.2 + p.1 * 4

/-- A mask and whether some dot was degenerate: what `Cell` returns (41_dot_sampler.md R177). -/
structure CellDots where
  mask : DotMask
  degen : Bool
  deriving DecidableEq, Repr

/-- The dot of cell (r, c) at (col, row), at its anchor (41_dot_sampler.md R174). -/
def cellDot (s : State) (r c : Nat) (p : Nat × Nat) : Dot :=
  sampleDot s (cellX0 s.rw c + 3 * p.1) (cellY0 s.rw r + 3 * p.2)

/-- The inner step of `Cell` (41_dot_sampler.md R177). -/
def addDot (s : State) (r c : Nat) (a : CellDots) (p : Nat × Nat) : CellDots :=
  let d := cellDot s r c p
  { mask := if d.on then a.mask ||| dotMask (internalBit p) else a.mask
    degen := a.degen || d.degen }

/-- `Cell(r, c)` (41_dot_sampler.md R177). -/
def cellDots (s : State) (r c : Nat) : CellDots :=
  dotPositions.foldl (addDot s r c) { mask := 0, degen := false }

/-! ### The commands -/

/-- `SAMPLE` (41_dot_sampler.md R172). -/
def execSample (s : State) : Host.Outcome State Fault Refusal :=
  if cfgValid s.params s.rw then
    let d := sampleDot s s.rw.xs.toNat s.rw.ys.toNat
    .next (advanceFresh (complete d.degen (setRes (bit16 d.on) s)))
  else .next (raise .cfgErr s)

/-- `CELL` (41_dot_sampler.md R176). -/
def execCell (s : State) : Host.Outcome State Fault Refusal :=
  if cfgValid s.params s.rw then
    if cellInRange s.rw then
      let c := cellDots s s.rw.row.toNat s.rw.col.toNat
      .next (advanceFresh (complete c.degen (setRes (gromRead c.mask).cp (setMask c.mask s))))
    else .next (raise .rangeErr s)
  else .next (raise .cfgErr s)

end Sys2Proof.Machine
end

