-- ==== Sys2Proof/Machine/Frame.lean ====
section
/-! DEFINITION. The command `FRAME`: every cell of the grid into OUT, each row followed by its
terminator (42_frame.md R204). -/

namespace Sys2Proof.Machine

/-- What `FRAME` carries from cell to cell: `k`, `degen`, `MASK`, `RES` and OUT (42_frame.md R204). -/
structure FrameAcc where
  k : Nat
  degen : Bool
  mask : DotMask
  res : BitVec 16
  out : OutSpace
  deriving DecidableEq, Repr

/-- The body of the loop over columns (42_frame.md R204). -/
def frameCell (s : State) (r : Nat) (a : FrameAcc) (c : Nat) : FrameAcc :=
  let d := cellDots s r c
  let e := gromRead d.mask
  { k := a.k + 1, degen := a.degen || d.degen, mask := d.mask, res := e.cp, out := outWrite a.k e.cp a.out }

/-- The row terminator: two units (42_frame.md R204; 30_encoding.md R96). -/
def frameRowEnd (a : FrameAcc) : FrameAcc :=
  { a with k := a.k + 2, out := outWrite (a.k + 1) unitLF (outWrite a.k unitCR a.out) }

/-- The body of the loop over rows: W glyphs left to right, then the terminator (42_frame.md R204). -/
def frameRow (s : State) (a : FrameAcc) (r : Nat) : FrameAcc :=
  frameRowEnd ((List.range s.rw.cfgW.toNat).foldl (frameCell s r) a)

/-- The accumulator before the first row. -/
def frameStart (s : State) : FrameAcc :=
  { k := 0, degen := false, mask := s.mask, res := s.res, out := s.out }

/-- All H rows (42_frame.md R204). -/
def frameRows (s : State) : FrameAcc := (List.range s.rw.cfgH.toNat).foldl (frameRow s) (frameStart s)

/-- The results of a completed `FRAME` put into the state (42_frame.md R204). -/
def frameStore (a : FrameAcc) (s : State) : State :=
  { s with mask := a.mask, res := a.res, out := a.out, outlen := BitVec.ofNat 32 a.k }

/-- `FRAME` (42_frame.md R204): `CFGERR` first, then `DIMERR` (60_exceptions.md R231). -/
def execFrame (s : State) : Host.Outcome State Fault Refusal :=
  if cfgValid s.params s.rw then
    if frameDimsOk s.params s.rw then
      let a := frameRows s
      .next (advanceFresh (complete a.degen (frameStore a s)))
    else .next (raise .dimErr s)
  else .next (raise .cfgErr s)

end Sys2Proof.Machine
end

