-- ==== Sys2Proof/Machine/Dispatch.lean ====
section
/-! DEFINITION. One arm per command. -/

namespace Sys2Proof.Machine

def exec (i : Instr) (s : State) : Host.Outcome State Fault Refusal :=
  match i with
  | .tostd m => Sys2Proof.Machine.execTostd m s
  | .toint m => Sys2Proof.Machine.execToint m s
  | .glyph m => Sys2Proof.Machine.execGlyph m s
  | .dotbit p => Sys2Proof.Machine.execDotbit p s
  | .sample => Sys2Proof.Machine.execSample s
  | .cell => Sys2Proof.Machine.execCell s
  | .frame => Sys2Proof.Machine.execFrame s

end Sys2Proof.Machine
end

