-- ==== Sys2Proof/Machine/HostPort.lean ====
section
/-! DEFINITION. What one transaction of the host does, the issue of a command among them
(10_state.md R23, R48, R49; 20_memory.md R74, R81; 70_reset_and_hazards.md R260). -/

namespace Sys2Proof.Machine

/-- A host write of `d` to `CMD`: the command runs to completion, or the word is illegal and ends `ILLCMD`
(10_state.md R23; 30_encoding.md R110; 60_exceptions.md R226). -/
def issue (d : Word) (s : State) : Host.Outcome State Fault Refusal :=
  match decode d with
  | .ok i => exec i s
  | .illegal _ => .next (raise .illCmd s)

/-- A register read hands the host a word and changes no state of BDS (10_state.md R48; log 6). -/
def hostRegRead (a : BitVec 8) (s : State) : State :=
  { s with replies := .reg (readIndex s a) :: s.replies }

/-- A register write; index 0x00 issues a command (10_state.md R49). -/
def hostRegWrite (a : BitVec 8) (d : Word) (s : State) : Host.Outcome State Fault Refusal :=
  if a = 0 then issue d s else .next (writeIndex a d s)

/-- A read of OUT: the unit at k, or a free value where k holds none (20_memory.md R71, R74; log 4). An
index that is no location of OUT faults (log 14). -/
def hostOutRead (k : Nat) (s : State) : Host.Outcome State Fault Refusal :=
  if k < outLocations then
    match outGet k s.out with
    | some u => .next { s with replies := .out u :: s.replies }
    | none => .next (advanceFresh { s with replies := .out (Config.freeOut s.fresh k) :: s.replies })
  else .fault .noSuchOutLocation

/-- One transaction of the host. -/
def transact (op : HostOp) (s : State) : Host.Outcome State Fault Refusal :=
  match op with
  | .regRead a => .next (hostRegRead a s)
  | .regWrite a d => hostRegWrite a d s
  | .outRead k => hostOutRead k s
  | .pixWrite x y p => .next (pixWrite x y p s)
  | .pixRelease => .next { s with pix := [] }
  | .reset => .next (hardReset s)

/-- The host's next transaction, with the rest left pending; with none pending BDS is idle and holds its
state (60_exceptions.md R243; 70_reset_and_hazards.md R263; log 20). -/
def hostStep (s : State) : Host.Outcome State Fault Refusal :=
  match s.host with
  | [] => .next s
  | op :: rest => transact op { s with host := rest }

end Sys2Proof.Machine
end

