-- ==== Sys2Proof/Machine/Step.lean ====
section
/-! DEFINITION. One step of the machine: the host's next transaction. -/

namespace Sys2Proof.Machine

/-- "The sequence of commands is the sequence of host writes to `CMD`" (10_state.md R40): a step makes the
host's next transaction, whole (20_memory.md R76). -/
def step (s : State) : Host.Outcome State Fault Refusal := hostStep s

/-- The state whose very next step is the host's write of that command word to `CMD` (log 5). -/
def State.withFetchWord (s : State) (nbits w : Nat) : State :=
  { s with host := .regWrite 0 (BitVec.ofNat 32 (w % 2 ^ nbits)) :: s.host }

end Sys2Proof.Machine
end

