-- ==== Sys2Proof/Safety.lean ====
section
/-! DEFINITION. The terms claims are made in: how a command may change `STATUS`, the invariant of every
state, an error-free state, and the dot decision over the rational numbers, as the source states it. -/

namespace Sys2Proof.Machine

/-! ### What a command does to `STATUS` -/

/-- `STATUS` goes from `old` to `new` by a completion with that degenerate bit (60_exceptions.md R225):
`LAST` = 0, `LASTDEGEN` = the bit, `S_DEGEN` set if it is 1, every other bit as it was. -/
def Completed (degen : Bool) (old new : Word) : Prop :=
  statusLast new = 0 ∧ statusLastDegen new = degen ∧ statusSDegen new = (statusSDegen old || degen) ∧
    ∀ b, b ∉ [1, 2, 3, 4, 12] → new.getLsbD b = old.getLsbD b

/-- `STATUS` goes from `old` to `new` by `raise e` (60_exceptions.md R224): `LAST` = the code,
`LASTDEGEN` = 0, the sticky bit set, every other bit as it was. -/
def Raised (e : ErrCode) (old new : Word) : Prop :=
  statusLast new = BitVec.ofNat 3 e.code ∧ statusLastDegen new = false ∧ statusSticky e new = true ∧
    ∀ b, b ∉ [1, 2, 3, 4, e.stickyBit] → new.getLsbD b = old.getLsbD b

/-- The outcome is a next state in which `e` was raised and nothing but `STATUS` changed
(60_exceptions.md R224, R233). -/
def EndsIn (e : ErrCode) (s : State) (o : Host.Outcome State Fault Refusal) : Prop :=
  ∃ t, o = .next t ∧ Raised e s.status t.status ∧ t = { s with status := t.status }

/-- No error is recorded: `STATUS[11:8] = 0`, a premise a claim may take (60_exceptions.md R236). -/
def noErrorRecorded (s : State) : Bool := s.status.extractLsb' 8 4 == 0#4

/-! ### Characters and results -/

/-- A glyph's code point, U+2800 to U+28FF (30_encoding.md R95). -/
def isGlyph (u : BitVec 16) : Prop := 0x2800 ≤ u.toNat ∧ u.toNat ≤ 0x28FF

/-- A character `FRAME` emits (20_memory.md R70). -/
def isOutChar (u : OutUnit) : Prop := isGlyph u ∨ u = unitCR ∨ u = unitLF

/-- What the host reads from OUT at index k, when the location holds a value (20_memory.md R71). -/
def outAt (s : State) (k : Nat) : Option OutUnit := outGet k s.out

/-! ### The invariant of every state -/

/-- What every step keeps. -/
structure State.Inv (s : State) : Prop where
  /-- The parameters meet 00_scope.md R9. -/
  params : s.params.legal = true
  /-- `BUSY` and the reserved bits of `STATUS` read 0 (10_state.md R24, R50). -/
  reserved : s.status &&& 0xFFFFE0E1#32 = 0#32
  /-- `LAST` is one of 0 to 4: "5 to 7 never occur" (10_state.md R24). -/
  last : (statusLast s.status).toNat ≤ 4
  /-- The error `LAST` names is recorded in its sticky bit (10_state.md R24; 60_exceptions.md R224). -/
  lastSticky : ∀ e : ErrCode, statusLast s.status = BitVec.ofNat 3 e.code → statusSticky e s.status = true
  /-- "`LAST` ≠ 0 implies `LASTDEGEN` = 0" (10_state.md R52). -/
  lastDegen : statusLast s.status ≠ 0 → statusLastDegen s.status = false
  /-- A degenerate dot of the last command is recorded in `S_DEGEN` (10_state.md R24). -/
  degenSticky : statusLastDegen s.status = true → statusSDegen s.status = true
  /-- `RES` holds an 8-bit value or a code point (10_state.md R37). -/
  res : s.res.toNat ≤ 0xFF ∨ isGlyph s.res
  /-- OUT and PIX are in canonical form. -/
  memory : Memory.wf s
  /-- A location that holds a value is a location of OUT (20_memory.md R70, R72). -/
  outIndex : ∀ k, (outAt s k).isSome → k < outLocations
  /-- OUT holds glyphs and row terminators only (20_memory.md R70). -/
  outChars : ∀ k u, outAt s k = some u → isOutChar u
  /-- The locations below `OUTLEN` hold a value (20_memory.md R73). -/
  outFilled : ∀ k, k < s.outlen.toNat → (outAt s k).isSome

/-! ### The dot decision over ℚ, as the source states it (41_dot_sampler.md R160 to R168) -/

/-- "(0.2126 R + 0.7152 G + 0.0722 B) / 255" (41_dot_sampler.md R160). -/
def luminanceQ (p : Word) : ℚ :=
  (2126 / 10000 * (pixR p : ℚ) + 7152 / 10000 * (pixG p : ℚ) + 722 / 10000 * (pixB p : ℚ)) / 255

/-- "per-pixel darkness = `1 - luminance`" (41_dot_sampler.md R160). -/
def darknessQ (p : Word) : ℚ := 1 - luminanceQ p

/-- θ = `CFG_THETA` / 2^FT (10_state.md R29). -/
def thetaQ (s : State) : ℚ := (s.rw.cfgTheta.toNat : ℚ) / 2 ^ s.params.ft

/-- E = `CFG_EDGE` / 2^FE (10_state.md R30). -/
def edgeQ (s : State) : ℚ := (s.rw.cfgEdge.toNat : ℚ) / 2 ^ s.params.fe

/-- "core pixels weight 1, rim pixels weight E" (41_dot_sampler.md R164). -/
def weightQ (s : State) (o : Int × Int) : ℚ :=
  if (o.1 = 0 ∨ o.1 = 1) ∧ (o.2 = 0 ∨ o.2 = 1) then 1 else edgeQ s

/-- The coordinate is in the image (41_dot_sampler.md R163). -/
abbrev inImage (s : State) (x y : Int) : Prop :=
  (0 ≤ x ∧ x < (s.rw.imgW.toNat : Int)) ∧ (0 ≤ y ∧ y < (s.rw.imgH.toNat : Int))

/-- `f` summed over the in-bounds pixels of the neighbourhood of the anchor (xs, ys)
(41_dot_sampler.md R162, R163, R165). -/
def sumInBounds (s : State) (xs ys : Nat) (f : Int × Int → Word → ℚ) : ℚ :=
  ∑ dy ∈ ({-1, 0, 1, 2} : Finset Int), ∑ dx ∈ ({-1, 0, 1, 2} : Finset Int),
    if inImage s (xs + dx) (ys + dy) then f (dx, dy) (pixWord s (xs + dx : Int).toNat (ys + dy : Int).toNat)
    else 0

/-- D0's "weighted sum" (41_dot_sampler.md R165). -/
def weightedSumQ (s : State) (xs ys : Nat) : ℚ :=
  sumInBounds s xs ys fun o p => weightQ s o * darknessQ p

/-- D0's "total weight" (41_dot_sampler.md R165). -/
def totalWeightQ (s : State) (xs ys : Nat) : ℚ := sumInBounds s xs ys fun o _ => weightQ s o

end Sys2Proof.Machine
end

