-- ==== Sys2Proof/Certificates/Slice0/Obligations.lean ====
section
/-! DEFINITION. The statements about BDS. Each docstring names the rule of `spec/` it formalises. -/

open Sys2Proof Sys2Proof.Machine

/-! ### Encoding -/

/-- 30_encoding.md R104: a command is selected iff `d & mask = match`, its operand the low bits of `d`
(R101, R102). Stated row by row with the table's numbers. -/
def Obligations.CommandSelectedIffMaskedWordMatches : Prop :=
  ∀ d : Word,
    (∀ m, decode d = .ok (.tostd m) ↔ d &&& 0xFFFFFF00#32 = 0x00001000#32 ∧ m = d.extractLsb' 0 8) ∧
    (∀ m, decode d = .ok (.toint m) ↔ d &&& 0xFFFFFF00#32 = 0x00002000#32 ∧ m = d.extractLsb' 0 8) ∧
    (∀ m, decode d = .ok (.glyph m) ↔ d &&& 0xFFFFFF00#32 = 0x00003000#32 ∧ m = d.extractLsb' 0 8) ∧
    (∀ p, decode d = .ok (.dotbit p) ↔
      d &&& 0xFFFFFFF8#32 = 0x00004000#32 ∧ p = (d.extractLsb' 0 3).toNat) ∧
    (decode d = .ok .sample ↔ d &&& 0xFFFFFFFF#32 = 0x00005000#32) ∧
    (decode d = .ok .cell ↔ d &&& 0xFFFFFFFF#32 = 0x00006000#32) ∧
    (decode d = .ok .frame ↔ d &&& 0xFFFFFFFF#32 = 0x00007000#32)

/-- Words written out from the encodings of 30_encoding.md R104 and the illegal neighbours of
95_test_vectors.md V4. -/
def Obligations.WrittenOutWordsDecode : Prop :=
  decode 0b00000000000000000001000000001000#32 = .ok (.tostd 0x08) ∧
  decode 0b00000000000000000010000001000000#32 = .ok (.toint 0x40) ∧
  decode 0b00000000000000000011000010100101#32 = .ok (.glyph 0xA5) ∧
  decode 0b00000000000000000100000000000111#32 = .ok (.dotbit 7) ∧
  decode 0b00000000000000000101000000000000#32 = .ok .sample ∧
  decode 0b00000000000000000110000000000000#32 = .ok .cell ∧
  decode 0b00000000000000000111000000000000#32 = .ok .frame ∧
  [0x00000000#32, 0x00001100#32, 0x00011001#32, 0x00004008#32, 0x00005001#32, 0x00006080#32,
    0x00007001#32, 0x00008000#32, 0xFFFFFFFF#32].all fun d => (decode d).instr?.isNone

/-- Decoding the word of any well-formed command gives that command: no operand bit is lost. -/
def Obligations.DecodeOfEncodeIsTheCommand : Prop :=
  ∀ i : Instr, i.wellFormed = true → decode (encode i) = .ok i

/-- A word that decodes is the word of the command it decodes to, and that command is well-formed: each
command has one word. -/
def Obligations.EncodeOfDecodeIsTheWord : Prop :=
  ∀ (d : Word) (i : Instr), decode d = .ok i → i.wellFormed = true ∧ encode i = d

/-- 30_encoding.md R110: the words that are illegal, spelled out; each ends `ILLCMD` and changes nothing
but `STATUS`; the all-zero word is one. -/
def Obligations.IllegalWordsEndIllcmd : Prop :=
  (∀ d : Word,
    ((∃ why, decode d = .illegal why) ↔
      (d.extractLsb' 16 16 ≠ 0#16 ∨ d.extractLsb' 8 4 ≠ 0#4 ∨
        ((d.extractLsb' 12 4).toNat = 0 ∨ 8 ≤ (d.extractLsb' 12 4).toNat) ∨
        ((d.extractLsb' 12 4).toNat = 4 ∧ d.extractLsb' 3 5 ≠ 0#5) ∨
        (5 ≤ (d.extractLsb' 12 4).toNat ∧ (d.extractLsb' 12 4).toNat ≤ 7 ∧ d.extractLsb' 0 8 ≠ 0#8))) ∧
    ((∃ why, decode d = .illegal why) → ∀ s, EndsIn .illCmd s (issue d s))) ∧
  ∃ why, decode 0#32 = .illegal why

/-- 30_encoding.md R111: 2^8·3 + 2^3 + 3 = 779 words are legal. -/
def Obligations.ThereAre779LegalWords : Prop :=
  {d : Word | ∃ i, decode d = .ok i}.ncard = 779

/-! ### The cell encoder -/

/-- 40_cell_encoder.md R131, R132: where each bit goes, in the three equivalent forms the rules give
(bit by bit, by the permutations P and Q of 30_encoding.md R93, by masks and shifts). -/
def Obligations.BitOrderTranslationsMoveEachBit : Prop :=
  ∀ v : DotMask,
    ((toStd v).getLsbD 0 = v.getLsbD 0 ∧ (toStd v).getLsbD 1 = v.getLsbD 1 ∧
      (toStd v).getLsbD 2 = v.getLsbD 2 ∧ (toStd v).getLsbD 3 = v.getLsbD 4 ∧
      (toStd v).getLsbD 4 = v.getLsbD 5 ∧ (toStd v).getLsbD 5 = v.getLsbD 6 ∧
      (toStd v).getLsbD 6 = v.getLsbD 3 ∧ (toStd v).getLsbD 7 = v.getLsbD 7) ∧
    (∀ ip ∈ [(0, 0), (1, 1), (2, 2), (3, 6), (4, 3), (5, 4), (6, 5), (7, 7)],
      (toStd v).getLsbD ip.2 = v.getLsbD ip.1) ∧
    toStd v = (v &&& 0x87#8) ||| ((v &&& 0x70#8) >>> 1) ||| ((v &&& 0x08#8) <<< 3) ∧
    ((toInt v).getLsbD 0 = v.getLsbD 0 ∧ (toInt v).getLsbD 1 = v.getLsbD 1 ∧
      (toInt v).getLsbD 2 = v.getLsbD 2 ∧ (toInt v).getLsbD 3 = v.getLsbD 6 ∧
      (toInt v).getLsbD 4 = v.getLsbD 3 ∧ (toInt v).getLsbD 5 = v.getLsbD 4 ∧
      (toInt v).getLsbD 6 = v.getLsbD 5 ∧ (toInt v).getLsbD 7 = v.getLsbD 7) ∧
    (∀ jq ∈ [(0, 0), (1, 1), (2, 2), (3, 4), (4, 5), (5, 6), (6, 3), (7, 7)],
      (toInt v).getLsbD jq.2 = v.getLsbD jq.1) ∧
    toInt v = (v &&& 0x87#8) ||| ((v &&& 0x38#8) <<< 1) ||| ((v &&& 0x40#8) >>> 3)

/-- 40_cell_encoder.md R133: mutual inverses, not involutions, order 4, the fixed values, the number of
set bits. -/
def Obligations.BitOrdersAreMutualInverses : Prop :=
  (∀ v, toInt (toStd v) = v ∧ toStd (toInt v) = v) ∧
  (toStd 0x08 = 0x40 ∧ toStd 0x40 = 0x20 ∧ toStd (toStd 0x08) ≠ 0x08 ∧ toInt (toInt 0x08) ≠ 0x08) ∧
  (∀ v, toStd (toStd (toStd (toStd v))) = v ∧ toInt (toInt (toInt (toInt v))) = v) ∧
  (∀ v, toStd v = v ↔ v.getLsbD 3 = v.getLsbD 4 ∧ v.getLsbD 4 = v.getLsbD 5 ∧ v.getLsbD 5 = v.getLsbD 6) ∧
  (∀ v, toInt v = v ↔ v.getLsbD 3 = v.getLsbD 4 ∧ v.getLsbD 4 = v.getLsbD 5 ∧ v.getLsbD 5 = v.getLsbD 6) ∧
  ((List.range 256).countP fun n => toStd (BitVec.ofNat 8 n) = BitVec.ofNat 8 n) = 32 ∧
  (∀ v, (List.range 8).countP (toStd v).getLsbD = (List.range 8).countP v.getLsbD ∧
    (List.range 8).countP (toInt v).getLsbD = (List.range 8).countP v.getLsbD)

/-- 40_cell_encoder.md R134: `TOSTD` completes in every state, `RES` = zext(ToStd m), `LAST` and
`LASTDEGEN` = 0, nothing else changes; the rule's corner cases and example. -/
def Obligations.TostdLeavesTheIsoPattern : Prop :=
  (∀ (m : DotMask) (s : State), ∃ t, exec (.tostd m) s = .next t ∧
    t.res = (toStd m).setWidth 16 ∧ Completed false s.status t.status ∧
    t = { s with res := t.res, status := t.status }) ∧
  toStd 0x00 = 0x00 ∧ toStd 0xFF = 0xFF ∧ toStd 0x08 = 0x40 ∧
  (∀ m i, i < 8 → i ∉ [3, 4, 5, 6] → (toStd m).getLsbD i = m.getLsbD i) ∧
  (∀ i ∈ [3, 4, 5, 6], ∃ m : DotMask, (toStd m).getLsbD i ≠ m.getLsbD i) ∧
  decode 0x00001008#32 = .ok (.tostd 0x08)

/-- 40_cell_encoder.md R135: `TOINT` completes in every state, `RES` = zext(ToInt s). -/
def Obligations.TointLeavesTheInternalMask : Prop :=
  (∀ (m : DotMask) (s : State), ∃ t, exec (.toint m) s = .next t ∧
    t.res = (toInt m).setWidth 16 ∧ Completed false s.status t.status ∧
    t = { s with res := t.res, status := t.status }) ∧
  toInt 0x00 = 0x00 ∧ toInt 0xFF = 0xFF ∧ toInt 0x40 = 0x08 ∧
  (∀ m i, i < 8 → i ∉ [3, 4, 5, 6] → (toInt m).getLsbD i = m.getLsbD i) ∧
  (∀ i ∈ [3, 4, 5, 6], ∃ m : DotMask, (toInt m).getLsbD i ≠ m.getLsbD i) ∧
  decode 0x00002040#32 = .ok (.toint 0x40)

/-- 40_cell_encoder.md R136: `GLYPH` completes in every state, `RES` = 0x2800 + ToStd(m), `MASK` = m;
the rule's corner cases and example. -/
def Obligations.GlyphLeavesCodePointAndMask : Prop :=
  (∀ (m : DotMask) (s : State), ∃ t, exec (.glyph m) s = .next t ∧
    t.res.toNat = 0x2800 + (toStd m).toNat ∧ t.mask = m ∧
    (0x2800 ≤ t.res.toNat ∧ t.res.toNat ≤ 0x28FF) ∧ t.res.setWidth 8 = toStd m ∧
    Completed false s.status t.status ∧
    t = { s with res := t.res, mask := t.mask, status := t.status }) ∧
  toStd 0x00 = 0x00 ∧ toStd 0xFF = 0xFF ∧ toStd 0x01 = 0x01 ∧ decode 0x00003001#32 = .ok (.glyph 0x01)

/-- 40_cell_encoder.md R137: `DOTBIT` completes in every state for every position 0 to 7, `RES` = 1 << p;
a word with `d[7:3] ≠ 0` is illegal; the rule's corner cases and example. -/
def Obligations.DotbitLeavesOneBit : Prop :=
  (∀ (p : Nat) (s : State), p < 8 → ∃ t, exec (.dotbit p) s = .next t ∧
    t.res = 1#16 <<< p ∧ (∀ b, t.res.getLsbD b = decide (b = p)) ∧
    Completed false s.status t.status ∧
    t = { s with res := t.res, status := t.status }) ∧
  (∀ d : Word, d.extractLsb' 12 4 = 4#4 → d.extractLsb' 3 5 ≠ 0#5 → ∃ why, decode d = .illegal why) ∧
  (1#16 <<< 0 = 0x01#16 ∧ 1#16 <<< 7 = 0x80#16 ∧ 1#16 <<< 3 = 0x08#16) ∧
  decode 0x00004003#32 = .ok (.dotbit 3)

/-- 40_cell_encoder.md R130: a cell-encoder command reads no register, no pixel and no earlier result (what it
writes is the same from any two states) and raises no error; the only error a word of the group (`op` 1 to 4)
can produce is `ILLCMD`, and the word alone decides it. -/
def Obligations.CellEncoderReadsOnlyItsOperand : Prop :=
  (∀ i : Instr, i ≠ .sample → i ≠ .cell → i ≠ .frame → ∀ s s' : State,
    ∃ t t', exec i s = .next t ∧ exec i s' = .next t' ∧ t.res = t'.res ∧
      ((∃ m, i = .glyph m) → t.mask = t'.mask) ∧ ((∀ m, i ≠ .glyph m) → t.mask = s.mask ∧ t'.mask = s'.mask) ∧
      Completed false s.status t.status ∧ Completed false s'.status t'.status) ∧
  ∀ d : Word, 1 ≤ (d.extractLsb' 12 4).toNat → (d.extractLsb' 12 4).toNat ≤ 4 →
    (∀ s, EndsIn .illCmd s (issue d s)) ∨ ∀ s, ∃ t, issue d s = .next t ∧ Completed false s.status t.status

/-- 30_encoding.md R95 with 20_memory.md R68: the ROM entry of k is (k, 0x2800 + ToStd k); the code point is
in U+2800 to U+28FF, its low 8 bits the ISO Pattern, its high 8 bits 0x28; the glyphs with no dot and with
all eight. -/
def Obligations.GromEntriesAreBrailleGlyphs : Prop :=
  (∀ k, (gromRead k).mask = k ∧ (gromRead k).cp.toNat = 0x2800 + (toStd k).toNat ∧
    (0x2800 ≤ (gromRead k).cp.toNat ∧ (gromRead k).cp.toNat ≤ 0x28FF) ∧
    (gromRead k).cp.extractLsb' 0 8 = toStd k ∧ (gromRead k).cp.extractLsb' 8 8 = 0x28#8) ∧
  (gromRead 0x00).cp = 0x2800#16 ∧ (gromRead 0xFF).cp = 0x28FF#16

/-- 20_memory.md R67: the entry at each of the 256 locations is 24 bits, bits 23:16 the mask k itself and bits
15:0 its code point `0x2800 + ToStd(k)`; nothing else is in it; `GromRead` returns those two fields. -/
def Obligations.GromWordPacksMaskAndCodePoint : Prop :=
  ∀ k : DotMask,
    (gromWord k).extractLsb' 16 8 = k ∧
    ((gromWord k).extractLsb' 0 16).toNat = 0x2800 + (toStd k).toNat ∧
    (gromWord k).toNat = k.toNat * 2 ^ 16 + (0x2800 + (toStd k).toNat) ∧
    (gromRead k).mask = (gromWord k).extractLsb' 16 8 ∧ (gromRead k).cp = (gromWord k).extractLsb' 0 16

/-! ### The dot decision -/

/-- 41_dot_sampler.md R161: the integers `Y` and `Dk`, their range, their meaning, and the rule's six
values. -/
def Obligations.IntegerDarknessIsExact : Prop :=
  (∀ p : Word,
    (luma p : ℤ) = 2126 * pixR p + 7152 * pixG p + 722 * pixB p ∧
    (darkness p : ℤ) = 2550000 - (2126 * pixR p + 7152 * pixG p + 722 * pixB p) ∧
    luma p ≤ 2550000 ∧ darkness p ≤ 2550000 ∧
    luminanceQ p = (luma p : ℚ) / 2550000 ∧ darknessQ p = (darkness p : ℚ) / 2550000) ∧
  (luma 0x00FFFFFF = 2550000 ∧ darkness 0x00FFFFFF = 0) ∧ (luma 0 = 0 ∧ darkness 0 = 2550000) ∧
  darkness 0x00FF0000 = 2007870 ∧ darkness 0x0000FF00 = 726240 ∧ darkness 0x000000FF = 2365890 ∧
  darkness 0x00808080 = 1270000

/-- 41_dot_sampler.md R166: the weighted sum is `NUM / (2^FE * 2550000)`, the total weight `DEN / 2^FE`, and
the order in which the 16 offsets are visited does not matter. -/
def Obligations.WeightedSumsAreScaledIntegers : Prop :=
  ∀ (s : State) (xs ys : Nat),
    weightedSumQ s xs ys =
      (num s.params.fe s.rw.cfgEdge.toNat (accumulate s xs ys) : ℚ) / (2 ^ s.params.fe * 2550000) ∧
    totalWeightQ s xs ys = (den s.params.fe s.rw.cfgEdge.toNat (accumulate s xs ys) : ℚ) / 2 ^ s.params.fe ∧
    ∀ l : List (Int × Int), l.Perm neighbourhood → l.foldl (addPixel s xs ys) accZero = accumulate s xs ys

/-- 41_dot_sampler.md R167: when `DEN` > 0 the mean darkness is `NUM / (2550000 * DEN)`, in [0, 1]. -/
def Obligations.MeanDarknessIsInUnitInterval : Prop :=
  ∀ (s : State) (xs ys : Nat), 0 < den s.params.fe s.rw.cfgEdge.toNat (accumulate s xs ys) →
    weightedSumQ s xs ys / totalWeightQ s xs ys =
      (num s.params.fe s.rw.cfgEdge.toNat (accumulate s xs ys) : ℚ) /
        (2550000 * den s.params.fe s.rw.cfgEdge.toNat (accumulate s xs ys)) ∧
    0 ≤ weightedSumQ s xs ys / totalWeightQ s xs ys ∧ weightedSumQ s xs ys / totalWeightQ s xs ys ≤ 1

/-- 41_dot_sampler.md R168: a dot of positive total weight is on iff its mean darkness, a rational number,
is at least θ: the integer decision refines the real one, ties included. -/
def Obligations.DotIsOnIffMeanDarknessReachesTheta : Prop :=
  ∀ (s : State) (xs ys : Nat), 0 < den s.params.fe s.rw.cfgEdge.toNat (accumulate s xs ys) →
    ((sampleDot s xs ys).on = true ↔ thetaQ s ≤ weightedSumQ s xs ys / totalWeightQ s xs ys) ∧
    ((sampleDot s xs ys).on = true ↔
      s.rw.cfgTheta.toNat * 2550000 * den s.params.fe s.rw.cfgEdge.toNat (accumulate s xs ys) ≤
        num s.params.fe s.rw.cfgEdge.toNat (accumulate s xs ys) * 2 ^ s.params.ft)

/-- 41_dot_sampler.md R170: a dot is degenerate iff its total weight is 0, iff no core pixel is in bounds and
E = 0 or no rim pixel is; what each policy decides; each command that meets one records it and completes. -/
def Obligations.DegenerateDotsFollowThePolicy : Prop :=
  (∀ (s : State) (xs ys : Nat),
    ((sampleDot s xs ys).degen = true ↔ totalWeightQ s xs ys = 0) ∧
    ((sampleDot s xs ys).degen = true ↔
      (accumulate s xs ys).nc = 0 ∧ (s.rw.cfgEdge = 0 ∨ (accumulate s xs ys).nr = 0)) ∧
    ((sampleDot s xs ys).degen = true → s.params.degenPolicy = .off → (sampleDot s xs ys).on = false) ∧
    ((sampleDot s xs ys).degen = true → s.params.degenPolicy = .darkness0 →
      ((sampleDot s xs ys).on = true ↔ s.rw.cfgTheta = 0))) ∧
  ∀ s : State, cfgValid s.params s.rw = true →
    ((sampleDot s s.rw.xs.toNat s.rw.ys.toNat).degen = true →
      ∃ t, exec .sample s = .next t ∧ Completed true s.status t.status) ∧
    (s.rw.row.toNat < s.rw.cfgH.toNat → s.rw.col.toNat < s.rw.cfgW.toNat →
      (∃ p ∈ dotPositions, (cellDot s s.rw.row.toNat s.rw.col.toNat p).degen = true) →
        ∃ t, exec .cell s = .next t ∧ Completed true s.status t.status) ∧
    (s.params.frameDimcheck = false →
      (∃ r c, r < s.rw.cfgH.toNat ∧ c < s.rw.cfgW.toNat ∧ ∃ p ∈ dotPositions, (cellDot s r c p).degen = true) →
        ∃ t, exec .frame s = .next t ∧ Completed true s.status t.status)

/-- 41_dot_sampler.md section 4 (`SAMPLE`): with a valid configuration the command completes, `RES` is the
dot, `STATUS` records whether it was degenerate, nothing else changes (the model's free-value counter apart,
log 3); with an invalid one it ends `CFGERR`. -/
def Obligations.SampleLeavesTheDot : Prop :=
  (∀ s : State, cfgValid s.params s.rw = true →
    ∃ t, exec .sample s = .next t ∧
      t.res = (if (sampleDot s s.rw.xs.toNat s.rw.ys.toNat).on then 1 else 0) ∧
      Completed (sampleDot s s.rw.xs.toNat s.rw.ys.toNat).degen s.status t.status ∧
      t = { s with res := t.res, status := t.status, fresh := t.fresh }) ∧
  ∀ s : State, cfgValid s.params s.rw = false → EndsIn .cfgErr s (exec .sample s)

/-- 41_dot_sampler.md section 4, corner cases: no pixel in bounds; the anchor one column past the image;
θ = 0; θ = 1. -/
def Obligations.SampleCornerCases : Prop :=
  (∀ (s : State) (xs ys : Nat),
    s.rw.imgW.toNat + 1 ≤ xs ∨ s.rw.imgH.toNat + 1 ≤ ys ∨ s.rw.imgW = 0 ∨ s.rw.imgH = 0 →
      accumulate s xs ys = accZero ∧ (sampleDot s xs ys).degen = true) ∧
  (∀ (s : State) (ys : Nat), s.rw.imgW ≠ 0 → ys < s.rw.imgH.toNat →
    (accumulate s s.rw.imgW.toNat ys).nc = 0 ∧
      ((sampleDot s s.rw.imgW.toNat ys).degen = true ↔ s.rw.cfgEdge = 0)) ∧
  (∀ (s : State) (xs ys : Nat), s.rw.cfgTheta = 0 → (sampleDot s xs ys).degen = false →
    (sampleDot s xs ys).on = true) ∧
  (∀ (s : State) (xs ys : Nat), s.rw.cfgTheta.toNat = 2 ^ s.params.ft → (sampleDot s xs ys).degen = false →
    ((sampleDot s xs ys).on = true ↔
      ∀ o ∈ neighbourhood, inImage s (xs + o.1) (ys + o.2) → weightQ s o ≠ 0 →
        let p := pixWord s (xs + o.1 : Int).toNat (ys + o.2 : Int).toNat
        pixR p = 0 ∧ pixG p = 0 ∧ pixB p = 0))

/-- 41_dot_sampler.md section 4 (R173 a): on an all-white image with θ > 0 every dot is off, and `CELL`
gives U+2800. -/
def Obligations.AllWhiteImageGivesEmptyGlyph : Prop :=
  ∀ s : State,
    (∀ x y : Nat, inImage s x y → (pixWord s x y).extractLsb' 0 24 = 0xFFFFFF#24) → s.rw.cfgTheta ≠ 0 →
      (∀ xs ys, (sampleDot s xs ys).on = false) ∧
      (cfgValid s.params s.rw = true → cellInRange s.rw = true →
        ∃ t, exec .cell s = .next t ∧ t.mask = 0x00 ∧ t.res = 0x2800)

/-- 41_dot_sampler.md section 4 (R173 b): on an all-black image with θ ≤ 1 every non-degenerate dot is on,
and a `CELL` that meets no degenerate dot gives U+28FF. -/
def Obligations.AllBlackImageGivesFullGlyph : Prop :=
  ∀ s : State,
    (∀ x y : Nat, inImage s x y → (pixWord s x y).extractLsb' 0 24 = 0#24) →
    s.rw.cfgTheta.toNat ≤ 2 ^ s.params.ft →
      (∀ xs ys, (sampleDot s xs ys).degen = false → (sampleDot s xs ys).on = true) ∧
      (cfgValid s.params s.rw = true → cellInRange s.rw = true →
        (cellDots s s.rw.row.toNat s.rw.col.toNat).degen = false →
          ∃ t, exec .cell s = .next t ∧ t.mask = 0xFF ∧ t.res = 0x28FF)

/-- 41_dot_sampler.md section 4 (R173 c): raising θ never turns an off dot on, under either policy. -/
def Obligations.RaisingThetaTurnsNoDotOn : Prop :=
  ∀ (s : State) (theta : Word) (xs ys : Nat), s.rw.cfgTheta.toNat ≤ theta.toNat →
    (sampleDot { s with rw := { s.rw with cfgTheta := theta } } xs ys).on = true →
      (sampleDot s xs ys).on = true

/-- 41_dot_sampler.md section 4 (R173 d): with E = 0 the decision depends only on the in-bounds core pixels,
whatever the rim holds. -/
def Obligations.EdgeWeightZeroIgnoresTheRim : Prop :=
  ∀ (s : State) (pix : PixSpace) (xs ys : Nat), s.rw.cfgEdge = 0 →
    (∀ dx ∈ ([0, 1] : List Nat), ∀ dy ∈ ([0, 1] : List Nat), inImage s (xs + dx) (ys + dy) →
      (pixWord { s with pix := pix } (xs + dx) (ys + dy)).extractLsb' 0 24 =
        (pixWord s (xs + dx) (ys + dy)).extractLsb' 0 24) →
    sampleDot { s with pix := pix } xs ys = sampleDot s xs ys

/-- 20_memory.md section 2 (R62): bits 31:24 of a pixel word are ignored: two buffers whose words agree in
bits 23:0 give every command the same outcome. -/
def Obligations.AlphaBitsAreIgnored : Prop :=
  ∀ (i : Instr) (s : State) (pix : PixSpace),
    (∀ x y : Nat, (pixWord { s with pix := pix } x y).extractLsb' 0 24 = (pixWord s x y).extractLsb' 0 24) →
      ∃ t, exec i s = .next t ∧ exec i { s with pix := pix } = .next { t with pix := pix }

/-! ### One cell -/

/-- 41_dot_sampler.md section 5 (`CELL`): with a valid configuration and (`ROW`, `COL`) in the grid the
command completes with the mask and the glyph of that cell; nothing but `RES`, `MASK` and `STATUS` changes
(the model's free-value counter apart, log 3). -/
def Obligations.CellLeavesMaskAndGlyph : Prop :=
  ∀ s : State, cfgValid s.params s.rw = true →
    s.rw.row.toNat < s.rw.cfgH.toNat → s.rw.col.toNat < s.rw.cfgW.toNat →
      ∃ t, exec .cell s = .next t ∧
        t.mask = (cellDots s s.rw.row.toNat s.rw.col.toNat).mask ∧
        t.res.toNat = 0x2800 + (toStd t.mask).toNat ∧
        Completed (cellDots s s.rw.row.toNat s.rw.col.toNat).degen s.status t.status ∧
        t = { s with res := t.res, mask := t.mask, status := t.status, fresh := t.fresh }

/-- 60_exceptions.md R229: `CELL` with a valid configuration and `ROW >= CFG_H` or `COL >= CFG_W` ends
`RANGEERR`; the rule's example. -/
def Obligations.CellOutsideTheGridEndsRangeerr : Prop :=
  (∀ s : State, cfgValid s.params s.rw = true →
    s.rw.cfgH.toNat ≤ s.rw.row.toNat ∨ s.rw.cfgW.toNat ≤ s.rw.col.toNat →
      EndsIn .rangeErr s (exec .cell s)) ∧
  ∀ s : State, cfgValid s.params s.rw = true → s.rw.cfgW = 1 → s.rw.cfgH = 1 → s.rw.col = 1 →
    ∃ t, exec .cell s = .next t ∧ statusLast t.status = 4#3 ∧ t.status.getLsbD 11 = true

/-- 41_dot_sampler.md R177, with the anchors of R174: bit `row + col*4` of the mask `Cell(r, c)` returns is
the dot at anchor (c*(6+3T) + 3 col, r*(12+3L) + 3 row), every other bit is 0, and the degenerate bit is 1
iff at least one of the 8 dots was degenerate. -/
def Obligations.CellMaskHoldsItsEightDots : Prop :=
  ∀ (s : State) (r c : Nat),
    let dot := fun col row => sampleDot s (c * (6 + 3 * s.rw.cfgT.toNat) + 3 * col)
      (r * (12 + 3 * s.rw.cfgL.toNat) + 3 * row)
    (∀ col row, col < 2 → row < 4 → (cellDots s r c).mask.getLsbD (row + col * 4) = (dot col row).on) ∧
    ((cellDots s r c).degen = true ↔ ∃ col row, col < 2 ∧ row < 4 ∧ (dot col row).degen = true)

/-- 41_dot_sampler.md section 6 (R179), 20_memory.md section 2 (R63): `CELL` reads only the in-bounds pixels
of its 7 by 13 rectangle: changing the buffer anywhere else changes nothing it leaves. -/
def Obligations.CellReadsOnlyItsRectangle : Prop :=
  ∀ (s : State) (pix : PixSpace),
    (∀ x y : Nat, inImage s x y →
      s.rw.col.toNat * (6 + 3 * s.rw.cfgT.toNat) ≤ x + 1 →
      x ≤ s.rw.col.toNat * (6 + 3 * s.rw.cfgT.toNat) + 5 →
      s.rw.row.toNat * (12 + 3 * s.rw.cfgL.toNat) ≤ y + 1 →
      y ≤ s.rw.row.toNat * (12 + 3 * s.rw.cfgL.toNat) + 11 →
        pixWord { s with pix := pix } x y = pixWord s x y) →
      ∃ t, exec .cell s = .next t ∧ exec .cell { s with pix := pix } = .next { t with pix := pix }

/-! ### Geometry -/

/-- 10_state.md R39: what `SCALED_W` and `SCALED_H` read, by `GeomValid` (the first four clauses of R43); 0
at reset. The premise is 00_scope.md R9's and R12's: the registers are wide enough for the value. -/
def Obligations.ScaledSizeRegistersRead : Prop :=
  (∀ s : State, scaledW s.params s.rw < 2 ^ 32 → scaledH s.params s.rw < 2 ^ 32 →
    let W := s.rw.cfgW.toNat
    let H := s.rw.cfgH.toNat
    let T := s.rw.cfgT.toNat
    let L := s.rw.cfgL.toNat
    let geom := (1 ≤ W ∧ W ≤ 2 ^ s.params.cw - 1) ∧ (1 ≤ H ∧ H ≤ 2 ^ s.params.cw - 1) ∧
      T ≤ 2 ^ s.params.sw - 1 ∧ L ≤ 2 ^ s.params.sw - 1
    (geom →
      ((readIndex s 0x10).toNat : ℤ) = (2 * (W : ℤ) + T * ((W : ℤ) - 1)) * 3 - 1 ∧
      ((readIndex s 0x11).toNat : ℤ) = (4 * (H : ℤ) + L * ((H : ℤ) - 1)) * 3 - 1 ∧
      (readIndex s 0x10).toNat = (W - 1) * (6 + 3 * T) + 5 ∧
      (readIndex s 0x11).toNat = (H - 1) * (12 + 3 * L) + 11) ∧
    (¬ geom → readIndex s 0x10 = 0 ∧ readIndex s 0x11 = 0)) ∧
  readIndex State.reset 0x10 = 0 ∧ readIndex State.reset 0x11 = 0

/-- 41_dot_sampler.md section 6 (R180): on a buffer of exactly the scaled size every core pixel of every dot
is in bounds, no dot is degenerate, and a dot has 4 by 4 in-bounds pixels less one line for each outer edge
it lies on. -/
def Obligations.NoDotIsDegenerateOnTheScaledBuffer : Prop :=
  ∀ (s : State) (r c col row : Nat), cfgValid s.params s.rw = true →
    s.rw.imgW.toNat = scaledW s.params s.rw → s.rw.imgH.toNat = scaledH s.params s.rw →
    r < s.rw.cfgH.toNat → c < s.rw.cfgW.toNat → col < 2 → row < 4 →
      let xs := c * (6 + 3 * s.rw.cfgT.toNat) + 3 * col
      let ys := r * (12 + 3 * s.rw.cfgL.toNat) + 3 * row
      let across := if (c = 0 ∧ col = 0) ∨ (c + 1 = s.rw.cfgW.toNat ∧ col = 1) then 3 else 4
      let down := if (r = 0 ∧ row = 0) ∨ (r + 1 = s.rw.cfgH.toNat ∧ row = 3) then 3 else 4
      (accumulate s xs ys).nc = 4 ∧ (accumulate s xs ys).nr + 4 = across * down ∧
      4 * 2 ^ s.params.fe ≤ den s.params.fe s.rw.cfgEdge.toNat (accumulate s xs ys) ∧
      (sampleDot s xs ys).degen = false

/-- 00_scope.md R12: at the default widths no intermediate value overflows. -/
def Obligations.DefaultWidthsHoldEveryIntermediate : Prop :=
  ∀ (s : State) (r c xs ys : Nat), s.params = Config.defaults → cfgValid s.params s.rw = true →
    r < s.rw.cfgH.toNat → c < s.rw.cfgW.toNat →
      let a := accumulate s xs ys
      let e := s.rw.cfgEdge.toNat
      scaledW s.params s.rw ≤ 50526719 ∧ scaledH s.params s.rw ≤ 50919929 ∧
      cellX0 s.rw c ≤ 50526714 ∧ cellY0 s.rw r ≤ 50919918 ∧
      (s.rw.cfgW.toNat + 2) * s.rw.cfgH.toNat ≤ 2 ^ 32 - 1 ∧
      (∀ p, darkness p ≤ 2550000) ∧ a.sc ≤ 10200000 ∧ a.sr ≤ 30600000 ∧
      num 8 e a ≤ 2007982200000 ∧ den 8 e a ≤ 787444 ∧
      num 8 e a * 2 ^ 16 < 2 ^ 57 ∧ s.rw.cfgTheta.toNat * 2550000 * den 8 e a < 2 ^ 57

/-! ### FRAME -/

/-- 42_frame.md section 2 (`FRAME`): with a valid configuration and, where the parameter asks for it, a
buffer of the scaled size, the command completes: `OUTLEN` is (W+2)*H, `MASK` and `RES` are those of the
last cell, `STATUS` records whether some dot was degenerate, and no register but these and no memory but
OUT changes (the model's free-value counter apart, log 3). -/
def Obligations.FrameLeavesLengthAndLastCell : Prop :=
  ∀ s : State, s.params.cw ≤ 16 → cfgValid s.params s.rw = true →
    (s.params.frameDimcheck = true →
      s.rw.imgW.toNat = scaledW s.params s.rw ∧ s.rw.imgH.toNat = scaledH s.params s.rw) →
      ∃ t g, exec .frame s = .next t ∧
        t.outlen.toNat = (s.rw.cfgW.toNat + 2) * s.rw.cfgH.toNat ∧
        t.mask = (cellDots s (s.rw.cfgH.toNat - 1) (s.rw.cfgW.toNat - 1)).mask ∧
        t.res.toNat = 0x2800 + (toStd t.mask).toNat ∧
        Completed g s.status t.status ∧
        (g = true ↔ ∃ r c, r < s.rw.cfgH.toNat ∧ c < s.rw.cfgW.toNat ∧ (cellDots s r c).degen = true) ∧
        t = { s with out := t.out, outlen := t.outlen, res := t.res, mask := t.mask,
                     status := t.status, fresh := t.fresh }

/-- 42_frame.md R205: the layout of OUT after a completed `FRAME`. The terminator's two code values are the
rule's; the spec takes them from general knowledge (30_encoding.md R96; PRESUMED, log 12). -/
def Obligations.FrameLaysOutTheGrid : Prop :=
  ∀ s t : State, s.params.cw ≤ 16 → exec .frame s = .next t → statusLast t.status = 0 →
    let W := s.rw.cfgW.toNat
    let H := s.rw.cfgH.toNat
    (∀ r c, r < H → c < W → outAt t (r * (W + 2) + c) = some (gromRead (cellDots s r c).mask).cp) ∧
    (∀ r, r < H → outAt t (r * (W + 2) + W) = some 0x000D ∧ outAt t (r * (W + 2) + W + 1) = some 0x000A) ∧
    t.outlen.toNat = (W + 2) * H

/-- 20_memory.md section 4 (R73): a completed `FRAME` writes the locations below `OUTLEN` and leaves every
other location of OUT as it was; one that ends in an error leaves all of OUT. -/
def Obligations.FrameWritesExactlyBelowOutlen : Prop :=
  ∀ s t : State, s.params.cw ≤ 16 → exec .frame s = .next t →
    (statusLast t.status = 0 →
      (∀ k, k < t.outlen.toNat → (outAt t k).isSome) ∧ (∀ k, t.outlen.toNat ≤ k → outAt t k = outAt s k)) ∧
    (statusLast t.status ≠ 0 → ∀ k, outAt t k = outAt s k)

/-- 42_frame.md R206: a completed `FRAME`'s output holds exactly H pairs CR LF, and each row has exactly W
glyphs before its terminator, for every valid configuration. The pair's two code values are the spec's from
general knowledge (30_encoding.md R96; PRESUMED, log 12). -/
def Obligations.FrameOutputHasHTerminators : Prop :=
  ∀ s t : State, s.params.cw ≤ 16 → exec .frame s = .next t → statusLast t.status = 0 →
    let W := s.rw.cfgW.toNat
    let H := s.rw.cfgH.toNat
    ((List.range t.outlen.toNat).countP fun k =>
      decide (outAt t k = some 0x000D) && decide (outAt t (k + 1) = some 0x000A)) = H ∧
    (∀ r, r < H → ((List.range W).countP fun c =>
      (outAt t (r * (W + 2) + c)).any fun u => decide (0x2800 ≤ u.toNat) && decide (u.toNat ≤ 0x28FF)) = W) ∧
    t.outlen.toNat = (W + 2) * H

/-- 42_frame.md R207: the unit `FRAME` writes for cell (r, c) is the value `CELL` would leave in `RES` with
`ROW` = r, `COL` = c and everything else the same; `FRAME` touches neither `ROW` nor `COL`. -/
def Obligations.FrameUnitIsWhatCellLeaves : Prop :=
  ∀ s t : State, exec .frame s = .next t → statusLast t.status = 0 →
    t.rw = s.rw ∧
    ∀ row col : Word, row.toNat < s.rw.cfgH.toNat → col.toNat < s.rw.cfgW.toNat →
      ∃ u, exec .cell { s with rw := { s.rw with row := row, col := col } } = .next u ∧
        outAt t (row.toNat * (s.rw.cfgW.toNat + 2) + col.toNat) = some u.res

/-- 42_frame.md section 2, corner case: with `FRAME_DIMCHECK = true` no dot is degenerate, so a completed
`FRAME` leaves `LASTDEGEN` = 0 and sets no sticky bit. -/
def Obligations.CheckedFrameMeetsNoDegenerateDot : Prop :=
  ∀ s : State, s.params.frameDimcheck = true → cfgValid s.params s.rw = true →
    s.rw.imgW.toNat = scaledW s.params s.rw → s.rw.imgH.toNat = scaledH s.params s.rw →
      ∃ t, exec .frame s = .next t ∧ Completed false s.status t.status

/-- 60_exceptions.md R228: `FRAME` with `FRAME_DIMCHECK = true`, a valid configuration and a buffer of
another size ends `DIMERR`; the rule's example. -/
def Obligations.FrameOnAnotherSizeEndsDimerr : Prop :=
  (∀ s : State, s.params.frameDimcheck = true → cfgValid s.params s.rw = true →
    s.rw.imgW.toNat ≠ scaledW s.params s.rw ∨ s.rw.imgH.toNat ≠ scaledH s.params s.rw →
      EndsIn .dimErr s (exec .frame s)) ∧
  ∀ s : State, s.params = Config.defaults → cfgValid s.params s.rw = true →
    s.rw.cfgW = 1 → s.rw.cfgH = 1 → s.rw.imgW = 4 →
      scaledW s.params s.rw = 5 ∧ scaledH s.params s.rw = 11 ∧
      ∃ t, exec .frame s = .next t ∧ statusLast t.status = 3#3 ∧ t.status.getLsbD 10 = true

/-! ### Errors and outcomes -/

/-- 10_state.md R43: `CfgValid` is the conjunction of six clauses; a sampler-group command issued while it is
false ends `CFGERR`; the cell-encoder group does not evaluate it. -/
def Obligations.InvalidConfigurationEndsCfgerr : Prop :=
  ∀ s : State,
    let valid := (1 ≤ s.rw.cfgW.toNat ∧ s.rw.cfgW.toNat ≤ 2 ^ s.params.cw - 1) ∧
      (1 ≤ s.rw.cfgH.toNat ∧ s.rw.cfgH.toNat ≤ 2 ^ s.params.cw - 1) ∧
      s.rw.cfgT.toNat ≤ 2 ^ s.params.sw - 1 ∧ s.rw.cfgL.toNat ≤ 2 ^ s.params.sw - 1 ∧
      s.rw.cfgTheta.toNat ≤ 2 ^ s.params.ft ∧ s.rw.cfgEdge.toNat ≤ 2 ^ s.params.ew - 1
    (cfgValid s.params s.rw = true ↔ valid) ∧
    (¬ valid → ∀ i ∈ [Instr.sample, Instr.cell, Instr.frame], EndsIn .cfgErr s (exec i s)) ∧
    (∀ i : Instr, i ∉ [Instr.sample, Instr.cell, Instr.frame] →
      ∃ t, exec i s = .next t ∧ Completed false s.status t.status)

/-- 60_exceptions.md R231: the code a command word leaves in `LAST`, the first that applies: `ILLCMD`, then
`CFGERR`, then `RANGEERR` (`CELL`) or `DIMERR` (`FRAME`), else 0; a command that does not complete records
no degenerate dot. -/
def Obligations.ErrorsAreReportedInPriorityOrder : Prop :=
  ∀ (d : Word) (s : State), ∃ t, issue d s = .next t ∧
    (statusLast t.status).toNat =
      (if (decode d).instr? = none then 1
      else if (d = 0x5000#32 ∨ d = 0x6000#32 ∨ d = 0x7000#32) ∧ cfgValid s.params s.rw = false then 2
      else if d = 0x6000#32 ∧
        (s.rw.cfgH.toNat ≤ s.rw.row.toNat ∨ s.rw.cfgW.toNat ≤ s.rw.col.toNat) then 4
      else if d = 0x7000#32 ∧ s.params.frameDimcheck = true ∧
        (s.rw.imgW.toNat ≠ scaledW s.params s.rw ∨ s.rw.imgH.toNat ≠ scaledH s.params s.rw) then 3
      else 0) ∧
    (statusLast t.status ≠ 0 → statusLastDegen t.status = false ∧ statusSDegen t.status = statusSDegen s.status)

/-- 60_exceptions.md R225: every command word either raises or completes, never neither, and never hangs; a
cell-encoder command completes with a degenerate bit of 0. -/
def Obligations.EveryCommandRaisesOrCompletes : Prop :=
  ∀ (d : Word) (s : State), ∃ t, issue d s = .next t ∧
    ((statusLast t.status = 0 ∧ ∃ g, Completed g s.status t.status) ∨
      (statusLast t.status ≠ 0 ∧ ∃ e, EndsIn e s (issue d s))) ∧
    (∀ i, decode d = .ok i → i ∉ [Instr.sample, Instr.cell, Instr.frame] →
      Completed false s.status t.status)

/-- 60_exceptions.md R233: a command that raises has written nothing except the `STATUS` fields of R224; in
particular a failing `FRAME` leaves OUT untouched. -/
def Obligations.RaisingCommandWritesStatusOnly : Prop :=
  ∀ (d : Word) (s t : State), issue d s = .next t → statusLast t.status ≠ 0 →
    t = { s with status := t.status } ∧ ∃ e, Raised e s.status t.status

/-- 10_state.md R42: no command's result depends on `STATUS`: from any other `STATUS` word every command
ends alike, and leaves everything but `STATUS` the same. -/
def Obligations.NoCommandReadsStatus : Prop :=
  ∀ (d : Word) (s t : State) (w : Word), issue d s = .next t →
    ∃ v, issue d { s with status := w } = .next { t with status := v } ∧
      statusLast v = statusLast t.status ∧ statusLastDegen v = statusLastDegen t.status

/-- 10_state.md R41: `OUTLEN` and OUT are written by a completed `FRAME` only, and it leaves
`OUTLEN` = (W+2)*H with its own configuration (CW is at most 16, 00_scope.md R9). -/
def Obligations.OnlyACompletedFrameWritesOutlen : Prop :=
  ∀ (d : Word) (s t : State), issue d s = .next t →
    (t.outlen ≠ s.outlen ∨ t.out ≠ s.out → decode d = .ok .frame ∧ statusLast t.status = 0) ∧
    (decode d = .ok .frame → statusLast t.status = 0 → s.params.cw ≤ 16 →
      t.outlen.toNat = (s.rw.cfgW.toNat + 2) * s.rw.cfgH.toNat)

/-- 10_state.md R51: after `GLYPH`, `CELL` or `FRAME` completed, `RES` = 0x2800 + ToStd(`MASK`); the other
commands leave `MASK` alone, and after they completed the relation does not hold. -/
def Obligations.ResIsTheGlyphOfMask : Prop :=
  ∀ (i : Instr) (s t : State), exec i s = .next t → statusLast t.status = 0 →
    ((∃ m, i = .glyph m) ∨ i = .cell ∨ i = .frame → t.res.toNat = 0x2800 + (toStd t.mask).toNat) ∧
    ((∃ m, i = .tostd m) ∨ (∃ m, i = .toint m) ∨ (∃ p, i = .dotbit p) ∨ i = .sample →
      t.mask = s.mask ∧ t.res.toNat ≠ 0x2800 + (toStd t.mask).toNat)

/-! ### Steps, the host's accesses and reset -/

/-- A step with a write of a decodable word to `CMD` pending is `exec` of the decoded command, at the state
with that transaction taken off; an undecodable one ends `ILLCMD` (10_state.md R23, R40). -/
def Obligations.StepRunsTheDecodedCommand : Prop :=
  ∀ (s : State) (d : Word) (rest : List HostOp), s.host = .regWrite 0 d :: rest →
    (∀ i, decode d = .ok i → step s = exec i { s with host := rest }) ∧
    (∀ why, decode d = .illegal why →
      EndsIn .illCmd { s with host := rest } (step s)) ∧
    (∀ w, step (s.withFetchWord 32 w) = issue (BitVec.ofNat 32 w) s)

/-- 10_state.md R48: a register read returns the word of the rule's table and changes no state of BDS; only
the host's list of replies grows (log 6). -/
def Obligations.RegisterReadReturnsTheMap : Prop :=
  ∀ (s : State) (a : BitVec 8) (rest : List HostOp), s.host = .regRead a :: rest →
    let table : List Word :=
      [0, s.status, s.rw.cfgW, s.rw.cfgH, s.rw.cfgT, s.rw.cfgL, s.rw.cfgTheta, s.rw.cfgEdge, s.rw.imgW,
       s.rw.imgH, s.rw.xs, s.rw.ys, s.rw.row, s.rw.col, s.res.setWidth 32, s.mask.setWidth 32,
       BitVec.ofNat 32 (scaledW s.params s.rw), BitVec.ofNat 32 (scaledH s.params s.rw), s.outlen]
    step s = .next { s with host := rest, replies := .reg (table.getD a.toNat 0) :: s.replies }

/-- 10_state.md R49: a register write stores all 32 bits in an RW register and nothing else; an RO register or
a reserved index ignores it; none of these changes `STATUS` or raises; index 0 issues the command. -/
def Obligations.RegisterWriteStoresOneRegister : Prop :=
  ∀ (s : State) (a : BitVec 8) (d : Word) (rest : List HostOp), s.host = .regWrite a d :: rest →
    (a.toNat = 0 → step s = issue d { s with host := rest }) ∧
    (a.toNat ≠ 0 → ∃ t, step s = .next t ∧ t = { s with host := rest, rw := t.rw } ∧
      ((2 ≤ a.toNat ∧ a.toNat ≤ 0x0D → readIndex t a = d ∧
        ∀ b : BitVec 8, b ≠ a → b.toNat ≤ 0x0D → readIndex t b = readIndex s b) ∧
      (a.toNat < 2 ∨ 0x0D < a.toNat → t.rw = s.rw) ∧
      (a = 0x06 → d = 0x00008000 → s.params.ft = 16 → thetaQ t = 1 / 2)))

/-- 10_state.md R50: the indices 0x13 to 0xFF read 0 and ignore writes, and the reserved bits of `STATUS`
read 0 in every state that meets the invariant. -/
def Obligations.ReservedIndexesReadZero : Prop :=
  (∀ (s : State) (a : BitVec 8) (d : Word), 0x13 ≤ a.toNat → readIndex s a = 0 ∧ writeIndex a d s = s) ∧
  ∀ s : State, s.Inv → (readIndex s 0x01).extractLsb' 5 3 = 0#3 ∧ (readIndex s 0x01).extractLsb' 13 19 = 0#19

/-- 20_memory.md section 4 (R71, R74): a host read of OUT returns the unit the location holds and changes no
state of BDS; a location without value returns some unit, a free value (the model's choice, log 4); an index
that is no location faults (the model's choice, log 14). -/
def Obligations.OutReadReturnsTheUnit : Prop :=
  ∀ (s : State) (k : Nat) (rest : List HostOp), s.host = .outRead k :: rest →
    (k < 2 ^ 32 - 1 → ∃ u f, step s = .next { s with host := rest, replies := .out u :: s.replies, fresh := f } ∧
      (∀ v, outAt s k = some v → u = v)) ∧
    (2 ^ 32 - 1 ≤ k → step s = .fault .noSuchOutLocation)

/-- 20_memory.md section 2 (R64, R81): a pixel the host defines reads back, every other pixel reads as
before, and nothing but PIX changes. -/
def Obligations.DefinedPixelReadsBack : Prop :=
  ∀ (s : State) (x y : Nat) (p : Word) (rest : List HostOp), s.host = .pixWrite x y p :: rest →
    ∃ t, step s = .next t ∧ t = { s with host := rest, pix := t.pix } ∧ pixWord t x y = p ∧
      ∀ x' y', (x', y') ≠ (x, y) → pixWord t x' y' = pixWord s x' y'

/-- No command writes an RW register (30_encoding.md section 4, R105; 10_state.md section 4, R44): in any step
only a host register write or reset changes one. PIX is read-only to BDS and the host's own (20_memory.md
sections 1 and 2, R60, R64): only the host's pixel transactions change it; that it is a field of the state and
is filled by these two transactions is the model's choice (logs 2 and 19). Nothing changes the parameters: the
model's choice too (log 1). -/
def Obligations.OnlyTheHostChangesTheConfiguration : Prop :=
  ∀ s t : State, step s = .next t →
    t.params = s.params ∧
    (t.rw ≠ s.rw → (∃ a d, s.host.head? = some (.regWrite a d) ∧ 2 ≤ a.toNat ∧ a.toNat ≤ 0x0D) ∨
      s.host.head? = some .reset) ∧
    (t.pix ≠ s.pix → (∃ x y p, s.host.head? = some (.pixWrite x y p)) ∨ s.host.head? = some .pixRelease)

/-- 70_reset_and_hazards.md R260: reset, from any state, leaves every register 0 as the host reads it, OUT
without value and PIX untouched; the state after reset is so too; and nothing but reset clears a sticky
bit. -/
def Obligations.ResetClearsEveryRegister : Prop :=
  (∀ (s : State) (rest : List HostOp), s.host = .reset :: rest →
    ∃ t, step s = .next t ∧ (∀ a, readIndex t a = 0) ∧ (∀ k, outAt t k = none) ∧ t.pix = s.pix ∧
      t.rw = RwRegs.reset) ∧
  (∀ a, readIndex State.reset a = 0) ∧ (∀ k, outAt State.reset k = none) ∧
  ∀ (s t : State) (b : Nat), step s = .next t → 8 ≤ b → b ≤ 12 → s.status.getLsbD b = true →
    t.status.getLsbD b = false → s.host.head? = some .reset

/-- 70_reset_and_hazards.md section 1 (R262, log 7): nothing of a command survives a reset after it, the
model's free-value counter apart (log 3). -/
def Obligations.ResetErasesTheCommandBefore : Prop :=
  ∀ (d : Word) (s t : State), issue d s = .next t → hardReset t = { hardReset s with fresh := t.fresh }

/-- 10_state.md R52: `STATUS[12:8]` is monotone between resets, and `LAST` ≠ 0 implies `LASTDEGEN` = 0 after
every step from a state where it does. -/
def Obligations.StickyBitsAreMonotone : Prop :=
  ∀ s t : State, step s = .next t →
    (s.host.head? ≠ some .reset → ∀ b, 8 ≤ b → b ≤ 12 → s.status.getLsbD b = true →
      t.status.getLsbD b = true) ∧
    ((statusLast s.status ≠ 0 → statusLastDegen s.status = false) →
      statusLast t.status ≠ 0 → statusLastDegen t.status = false)

/-- Every step keeps the invariant: the reserved bits of `STATUS` read 0, `LAST` is one of five codes and is
recorded in its sticky bit, `RES` is a byte or a glyph, OUT and PIX are in canonical form, OUT holds only
glyphs and terminators at existing locations and is filled below `OUTLEN`. -/
def Obligations.StepKeepsTheInvariant : Prop :=
  ∀ s t : State, s.Inv → step s = .next t → t.Inv

/-- The state after reset meets the invariant. -/
def Obligations.ResetMeetsTheInvariant : Prop := State.reset.Inv
end

