-- ==== Sys2Proof/Laws/Decode.lean ====
section
/-! SUPPORT. The decoder and the encoder read as arithmetic on the word's number, so that facts about them
are facts of linear arithmetic. -/

namespace Sys2Proof

theorem bitVec_eq_zero_iff {n : Nat} (v : BitVec n) : v = 0 ↔ v.toNat = 0 := by
  rw [← BitVec.toNat_inj]
  rfl

theorem extract_toNat (d : Word) (lo len : Nat) :
    (d.extractLsb' lo len).toNat = d.toNat / 2 ^ lo % 2 ^ len := by
  rw [BitVec.extractLsb'_toNat, Nat.shiftRight_eq_div_pow]

theorem fieldHi_toNat (d : Word) : (fieldHi d).toNat = d.toNat / 65536 := by
  have := d.isLt
  rw [fieldHi, extract_toNat]
  omega

theorem fieldOp_toNat (d : Word) : (fieldOp d).toNat = d.toNat / 4096 % 16 := extract_toNat d 12 4
theorem fieldZ_toNat (d : Word) : (fieldZ d).toNat = d.toNat / 256 % 16 := extract_toNat d 8 4
theorem fieldImm_toNat (d : Word) : (fieldImm d).toNat = d.toNat % 256 := by
  rw [fieldImm, extract_toNat]
  omega
theorem fieldImmHigh_toNat (d : Word) : (fieldImmHigh d).toNat = d.toNat / 8 % 32 := extract_toNat d 3 5
theorem fieldImm3_toNat (d : Word) : (fieldImm3 d).toNat = d.toNat % 8 := by
  rw [fieldImm3, extract_toNat]
  omega

theorem layout_toNat (op : BitVec 4) (imm : BitVec 8) :
    (layout op imm).toNat = op.toNat * 4096 + imm.toNat := by
  have h1 := imm.isLt
  have h2 := op.isLt
  rw [layout, BitVec.toNat_or, BitVec.toNat_shiftLeft, BitVec.toNat_setWidth, BitVec.toNat_setWidth,
    Nat.shiftLeft_eq, Nat.mod_eq_of_lt (by omega), Nat.mod_eq_of_lt (by omega), Nat.mod_eq_of_lt (by omega),
    Nat.mul_comm, ← Nat.two_pow_add_eq_or_of_lt (by omega)]

/-- The number of a command's word: the fields `op` and `imm` (30_encoding.md R100, R104). -/
def wordNumber : Instr → Nat
  | .tostd m => 4096 + m.toNat
  | .toint s => 8192 + s.toNat
  | .glyph m => 12288 + m.toNat
  | .dotbit p => 16384 + p
  | .sample => 20480
  | .cell => 24576
  | .frame => 28672

theorem encode_toNat {i : Instr} (h : i.wellFormed = true) : (encode i).toNat = wordNumber i := by
  cases i with
  | dotbit p =>
    have hp : p < 8 := by simpa [Instr.wellFormed] using h
    simp [encode, layout_toNat, wordNumber]
    omega
  | _ => simp [encode, layout_toNat, wordNumber]

/-- What a word decodes to, by its number (30_encoding.md R104, R110). -/
theorem decode_by_number (d : Word) :
    decode d =
      if 65536 ≤ d.toNat then .illegal .hiNotZero
      else if d.toNat / 256 % 16 ≠ 0 then .illegal .zNotZero
      else
        match d.toNat / 4096 with
        | 1 => .ok (.tostd (fieldImm d))
        | 2 => .ok (.toint (fieldImm d))
        | 3 => .ok (.glyph (fieldImm d))
        | 4 => if d.toNat / 8 % 32 = 0 then .ok (.dotbit (d.toNat % 8)) else .illegal .dotbitImmHigh
        | 5 => if d.toNat % 256 = 0 then .ok .sample else .illegal .immNotZero
        | 6 => if d.toNat % 256 = 0 then .ok .cell else .illegal .immNotZero
        | 7 => if d.toNat % 256 = 0 then .ok .frame else .illegal .immNotZero
        | _ => .illegal .noSuchOp := by
  have hi : fieldHi d ≠ 0 ↔ 65536 ≤ d.toNat := by
    rw [ne_eq, bitVec_eq_zero_iff, fieldHi_toNat]
    omega
  have hz : fieldZ d ≠ 0 ↔ d.toNat / 256 % 16 ≠ 0 := by rw [ne_eq, bitVec_eq_zero_iff, fieldZ_toNat]
  have himm : fieldImm d = 0#8 ↔ d.toNat % 256 = 0 :=
    (bitVec_eq_zero_iff _).trans (by rw [fieldImm_toNat])
  have hhigh : fieldImmHigh d = 0#5 ↔ d.toNat / 8 % 32 = 0 :=
    (bitVec_eq_zero_iff _).trans (by rw [fieldImmHigh_toNat])
  by_cases h1 : 65536 ≤ d.toNat
  · rw [decode, if_pos (hi.2 h1), if_pos h1]
  · rw [decode, if_neg (fun h => h1 (hi.1 h)), if_neg h1]
    by_cases h2 : d.toNat / 256 % 16 ≠ 0
    · rw [if_pos (hz.2 h2), if_pos h2]
    · rw [if_neg (fun h => h2 (hz.1 h)), if_neg h2, fieldOp_toNat, Nat.mod_eq_of_lt (by omega)]
      generalize d.toNat / 4096 = op
      rcases op with _ | _ | _ | _ | _ | _ | _ | _ | op <;>
        simp [decodeNFormat, himm, hhigh, fieldImm3_toNat]

/-- A decoded command is well-formed. -/
theorem decode_wellFormed {d : Word} {i : Instr} (h : decode d = .ok i) : i.wellFormed = true := by
  rw [decode_by_number] at h
  split at h
  · cases h
  split at h
  · cases h
  split at h <;> try split at h
  all_goals cases h
  all_goals simp only [Instr.wellFormed, decide_eq_true_eq]
  omega

end Sys2Proof
end

