-- ==== Sys2Proof/Laws/Status.lean ====
section
/-! SUPPORT. What `raise` and completion do to `STATUS`, field by field. -/

namespace Sys2Proof.Machine

/-- Bit `b` of `STATUS` after a completion. -/
theorem statusComplete_getLsbD (g : Bool) (w : Word) (b : Nat) :
    (statusComplete g w).getLsbD b =
      if b = 4 then g else if b = 12 then (w.getLsbD 12 || g)
      else if b = 1 ∨ b = 2 ∨ b = 3 then false else w.getLsbD b := by
  by_cases hb : b < 32
  · revert b
    cases g <;> simp [statusComplete, statusCleared, degenStickyBit, BitVec.getLsbD_or, BitVec.getLsbD_and]
    all_goals
      intro b hb
      interval_cases b <;> simp
  · have h1 : ∀ v : Word, v.getLsbD b = false := fun v => BitVec.getLsbD_of_ge v b (by omega)
    rw [h1, h1]
    split_ifs <;> first | rfl | omega

/-- Bit `b` of `STATUS` after `raise e`. -/
theorem statusRaise_getLsbD (e : ErrCode) (w : Word) (b : Nat) :
    (statusRaise e w).getLsbD b =
      if b = e.stickyBit then true else if b = 4 then false
      else if b = 1 ∨ b = 2 ∨ b = 3 then e.code.testBit (b - 1) else w.getLsbD b := by
  by_cases hb : b < 32
  · cases e <;>
      simp only [statusRaise, statusCleared, ErrCode.code, ErrCode.stickyBit, BitVec.getLsbD_or,
        BitVec.getLsbD_and] <;>
      interval_cases b <;> simp <;> decide
  · have h1 : ∀ v : Word, v.getLsbD b = false := fun v => BitVec.getLsbD_of_ge v b (by omega)
    have h2 : ¬ (b = 1 ∨ b = 2 ∨ b = 3) := by omega
    have h3 : b ≠ e.stickyBit := by cases e <;> simp only [ErrCode.stickyBit] <;> omega
    simp [h1, h2, h3]

theorem completed_statusComplete (g : Bool) (w : Word) : Completed g w (statusComplete g w) := by
  refine ⟨?_, ?_, ?_, fun b hb => ?_⟩
  · ext i hi
    simp only [statusLast, BitVec.getElem_extractLsb', statusComplete_getLsbD]
    interval_cases i <;> simp
  · rw [statusLastDegen, statusComplete_getLsbD]; rfl
  · rw [statusSDegen, degenStickyBit, statusComplete_getLsbD]; rfl
  · simp only [List.mem_cons, List.not_mem_nil, or_false, not_or] at hb
    simp [statusComplete_getLsbD, hb]

theorem raised_statusRaise (e : ErrCode) (w : Word) : Raised e w (statusRaise e w) := by
  refine ⟨?_, ?_, ?_, fun b hb => ?_⟩
  · ext i hi
    simp only [statusLast, BitVec.getElem_extractLsb', statusRaise_getLsbD]
    interval_cases i <;> cases e <;> simp [ErrCode.code, ErrCode.stickyBit] <;> decide
  · rw [statusLastDegen, statusRaise_getLsbD]; cases e <;> rfl
  · simp [statusSticky, statusRaise_getLsbD]
  · simp only [List.mem_cons, List.not_mem_nil, or_false, not_or] at hb
    simp [statusRaise_getLsbD, hb]

/-- The bits of `STATUS` that always read 0 stay as they are: no command writes them. -/
theorem completed_reserved {g : Bool} {old new : Word} (h : Completed g old new)
    (hr : old &&& 0xFFFFE0E1#32 = 0#32) : new &&& 0xFFFFE0E1#32 = 0#32 := by
  refine BitVec.eq_of_getLsbD_eq fun b hb => ?_
  have hr' := congrArg (·.getLsbD b) hr
  simp only [BitVec.getLsbD_and] at hr' ⊢
  by_cases hm : b ∈ [1, 2, 3, 4, 12]
  · simp only [List.mem_cons, List.not_mem_nil, or_false] at hm
    rcases hm with rfl | rfl | rfl | rfl | rfl <;> simp
  · rw [h.2.2.2 b hm, hr']

theorem raised_reserved {e : ErrCode} {old new : Word} (h : Raised e old new)
    (hr : old &&& 0xFFFFE0E1#32 = 0#32) : new &&& 0xFFFFE0E1#32 = 0#32 := by
  refine BitVec.eq_of_getLsbD_eq fun b hb => ?_
  have hr' := congrArg (·.getLsbD b) hr
  simp only [BitVec.getLsbD_and] at hr' ⊢
  by_cases hm : b ∈ [1, 2, 3, 4, e.stickyBit]
  · simp only [List.mem_cons, List.not_mem_nil, or_false] at hm
    rcases hm with rfl | rfl | rfl | rfl | rfl <;> first | (simp; done) | (cases e <;> simp [ErrCode.stickyBit])
  · rw [h.2.2.2 b hm, hr']

end Sys2Proof.Machine
end

