-- ==== Sys2Proof/Laws/DotSampler.lean ====
section
/-! SUPPORT. What the dot sampler computes: the accumulators as sums, the decision by cases, the mask of
a cell bit by bit. -/

namespace Sys2Proof.Machine

/-! ### One pixel -/

theorem pixR_lt (p : Word) : pixR p < 256 := (p.extractLsb' 16 8).isLt
theorem pixG_lt (p : Word) : pixG p < 256 := (p.extractLsb' 8 8).isLt
theorem pixB_lt (p : Word) : pixB p < 256 := (p.extractLsb' 0 8).isLt

/-- `Y` ranges over 0 to 2550000, so `darkness` never truncates (41_dot_sampler.md R161). -/
theorem luma_le (p : Word) : luma p ≤ darknessMax := by
  have := pixR_lt p
  have := pixG_lt p
  have := pixB_lt p
  simp only [luma, darknessMax, lumaR, lumaG, lumaB]
  omega

theorem darkness_add_luma (p : Word) : darkness p + luma p = darknessMax :=
  Nat.sub_add_cancel (luma_le p)

theorem darkness_le (p : Word) : darkness p ≤ darknessMax := Nat.sub_le _ _

/-! ### The accumulators as sums over the neighbourhood -/

/-- The offset is in bounds and of the class asked for. -/
def counts (s : State) (xs ys : Nat) (core : Bool) (o : Int × Int) : Bool :=
  inBounds s.rw ((xs : Int) + o.1) ((ys : Int) + o.2) && isCore o == core

/-- What one offset adds to `Sc` or `Sr`. -/
def darkTerm (s : State) (xs ys : Nat) (core : Bool) (o : Int × Int) : Nat :=
  if counts s xs ys core o then
    darkness (pixWord s ((xs : Int) + o.1).toNat ((ys : Int) + o.2).toNat) else 0

/-- What one offset adds to `Nc` or `Nr`. -/
def countTerm (s : State) (xs ys : Nat) (core : Bool) (o : Int × Int) : Nat :=
  if counts s xs ys core o then 1 else 0

/-- Any list of offsets adds the sums of its terms: the order does not matter (41_dot_sampler.md R166). -/
theorem foldl_addPixel (s : State) (xs ys : Nat) (l : List (Int × Int)) (a : DotAcc) :
    l.foldl (addPixel s xs ys) a =
      { sc := a.sc + (l.map (darkTerm s xs ys true)).sum
        sr := a.sr + (l.map (darkTerm s xs ys false)).sum
        nc := a.nc + (l.map (countTerm s xs ys true)).sum
        nr := a.nr + (l.map (countTerm s xs ys false)).sum } := by
  induction l generalizing a with
  | nil => rfl
  | cons o l ih =>
    rw [List.foldl_cons, ih]
    simp only [addPixel, List.map_cons, List.sum_cons, darkTerm, countTerm, counts]
    by_cases hb : inBounds s.rw ((xs : Int) + o.1) ((ys : Int) + o.2) = true <;>
      by_cases hc : isCore o = true <;> simp [hb, hc, Nat.add_assoc]

theorem accumulate_eq (s : State) (xs ys : Nat) :
    accumulate s xs ys =
      { sc := (neighbourhood.map (darkTerm s xs ys true)).sum
        sr := (neighbourhood.map (darkTerm s xs ys false)).sum
        nc := (neighbourhood.map (countTerm s xs ys true)).sum
        nr := (neighbourhood.map (countTerm s xs ys false)).sum } := by
  rw [accumulate, foldl_addPixel]
  simp only [accZero, Nat.zero_add]

/-- The 16 offsets, written out (41_dot_sampler.md R162). -/
theorem neighbourhood_eq :
    neighbourhood = [(-1, -1), (0, -1), (1, -1), (2, -1), (-1, 0), (0, 0), (1, 0), (2, 0),
      (-1, 1), (0, 1), (1, 1), (2, 1), (-1, 2), (0, 2), (1, 2), (2, 2)] := rfl

theorem mem_neighbourhood {o : Int × Int} (h : o ∈ neighbourhood) :
    -1 ≤ o.1 ∧ o.1 ≤ 2 ∧ -1 ≤ o.2 ∧ o.2 ≤ 2 := by
  rw [neighbourhood_eq] at h
  simp only [List.mem_cons, List.not_mem_nil, or_false] at h
  rcases h with h | h | h | h | h | h | h | h | h | h | h | h | h | h | h | h <;> subst h <;> decide

/-- At most 4 core and 12 rim pixels (41_dot_sampler.md R164, R165). -/
theorem accumulate_counts (s : State) (xs ys : Nat) :
    (accumulate s xs ys).nc ≤ 4 ∧ (accumulate s xs ys).nr ≤ 12 := by
  have hle : ∀ core o, countTerm s xs ys core o ≤ if isCore o == core then 1 else 0 := by
    intro core o
    simp only [countTerm, counts]
    by_cases hb : inBounds s.rw ((xs : Int) + o.1) ((ys : Int) + o.2) = true <;> simp [hb]
  have hsum : ∀ core, (neighbourhood.map (countTerm s xs ys core)).sum ≤
      (neighbourhood.map fun o => if isCore o == core then 1 else 0).sum := fun core =>
    List.sum_le_sum fun o _ => hle core o
  rw [accumulate_eq]
  exact ⟨(hsum true).trans (by decide), (hsum false).trans (by decide)⟩

/-- Each pixel adds at most 2550000 (41_dot_sampler.md R161). -/
theorem accumulate_sums (s : State) (xs ys : Nat) :
    (accumulate s xs ys).sc ≤ darknessMax * (accumulate s xs ys).nc ∧
      (accumulate s xs ys).sr ≤ darknessMax * (accumulate s xs ys).nr := by
  have hle : ∀ core, ∀ l : List (Int × Int), (l.map (darkTerm s xs ys core)).sum ≤
      darknessMax * (l.map (countTerm s xs ys core)).sum := by
    intro core l
    induction l with
    | nil => simp
    | cons o l ih =>
      simp only [List.map_cons, List.sum_cons, Nat.mul_add]
      refine Nat.add_le_add ?_ ih
      simp only [darkTerm, countTerm]
      split
      · simpa using darkness_le _
      · simp
  rw [accumulate_eq]
  exact ⟨hle true _, hle false _⟩

/-- `Sample` reads the bounds and the words of its in-bounds pixels, nothing else. -/
theorem accumulate_congr {s t : State} {xs ys : Nat} (hw : t.rw.imgW = s.rw.imgW) (hh : t.rw.imgH = s.rw.imgH)
    (hp : ∀ o ∈ neighbourhood, inBounds s.rw ((xs : Int) + o.1) ((ys : Int) + o.2) = true →
      darkness (pixWord t ((xs : Int) + o.1).toNat ((ys : Int) + o.2).toNat) =
        darkness (pixWord s ((xs : Int) + o.1).toNat ((ys : Int) + o.2).toNat)) :
    accumulate t xs ys = accumulate s xs ys := by
  have hcount : ∀ core o, counts t xs ys core o = counts s xs ys core o := fun core o => by
    simp only [counts, inBounds, hw, hh]
  have hc : ∀ core o, countTerm t xs ys core o = countTerm s xs ys core o := fun core o => by
    rw [countTerm, hcount, countTerm]
  have hd : ∀ core, ∀ o ∈ neighbourhood, darkTerm t xs ys core o = darkTerm s xs ys core o := by
    intro core o ho
    rw [darkTerm, hcount, darkTerm]
    by_cases h : counts s xs ys core o = true
    · rw [if_pos h, if_pos h]
      exact hp o ho (by rw [counts, Bool.and_eq_true] at h; exact h.1)
    · rw [if_neg h, if_neg h]
  rw [accumulate_eq, accumulate_eq, List.map_congr_left (hd true), List.map_congr_left (hd false),
    List.map_congr_left fun o _ => hc true o, List.map_congr_left fun o _ => hc false o]

/-! ### The decision -/

theorem decideDot_degen (p : Config.Params) (theta edge : Nat) (a : DotAcc) :
    (decideDot p theta edge a).degen = decide (den p.fe edge a = 0) := by
  simp only [decideDot]
  split
  · next h => split <;> simp [h]
  · next h => simp [h]

theorem decideDot_on_of_den_ne (p : Config.Params) (theta edge : Nat) (a : DotAcc)
    (h : den p.fe edge a ≠ 0) :
    (decideDot p theta edge a).on =
      decide (theta * darknessMax * den p.fe edge a ≤ num p.fe edge a * 2 ^ p.ft) := by
  simp only [decideDot, if_neg h]

theorem decideDot_on_of_den_eq (p : Config.Params) (theta edge : Nat) (a : DotAcc)
    (h : den p.fe edge a = 0) :
    (decideDot p theta edge a).on = (decide (p.degenPolicy = .darkness0) && decide (theta = 0)) := by
  simp only [decideDot, if_pos h]
  cases hp : p.degenPolicy <;> simp

/-- "`Nc = 0` and (`EDGE = 0` or `Nr = 0`)" (41_dot_sampler.md R170). -/
theorem den_eq_zero (fe edge : Nat) (a : DotAcc) : den fe edge a = 0 ↔ a.nc = 0 ∧ (edge = 0 ∨ a.nr = 0) := by
  simp [den]

/-- "`NUM` ≤ 2550000 * `DEN`" (41_dot_sampler.md R167). -/
theorem num_le (s : State) (xs ys fe edge : Nat) :
    num fe edge (accumulate s xs ys) ≤ darknessMax * den fe edge (accumulate s xs ys) := by
  obtain ⟨hc, hr⟩ := accumulate_sums s xs ys
  have h1 := Nat.mul_le_mul_left (2 ^ fe) hc
  have h2 := Nat.mul_le_mul_left edge hr
  simp only [num, den]
  linarith

/-- Everything `Sample` reads (41_dot_sampler.md R171). -/
theorem sampleDot_congr {s t : State} {xs ys : Nat} (hp : t.params = s.params)
    (htheta : t.rw.cfgTheta = s.rw.cfgTheta) (hedge : t.rw.cfgEdge = s.rw.cfgEdge)
    (hacc : accumulate t xs ys = accumulate s xs ys) : sampleDot t xs ys = sampleDot s xs ys := by
  simp only [sampleDot, hp, htheta, hedge, hacc]

/-! ### One cell -/

/-- The fold over any dots: a bit is set iff it was or one of the dots there is on. -/
theorem foldl_addDot (s : State) (r c : Nat) (l : List (Nat × Nat)) (a : CellDots) :
    (l.foldl (addDot s r c) a).degen = (a.degen || l.any fun p => (cellDot s r c p).degen) ∧
      ∀ b, b < 8 → (l.foldl (addDot s r c) a).mask.getLsbD b =
        (a.mask.getLsbD b || l.any fun p => (cellDot s r c p).on && decide (b = internalBit p)) := by
  induction l generalizing a with
  | nil => simp
  | cons p l ih =>
    rw [List.foldl_cons]
    refine ⟨?_, fun b hb => ?_⟩
    · rw [(ih _).1]
      simp [addDot, Bool.or_assoc]
    · rw [(ih _).2 b hb]
      have hbit : (dotMask (internalBit p)).getLsbD b = decide (b = internalBit p) := by
        simp only [dotMask, BitVec.getLsbD_shiftLeft, BitVec.getLsbD_one]
        by_cases h : b = internalBit p
        · simp [h]; omega
        · simp only [h, decide_false, Bool.and_eq_false_iff]
          by_cases h' : b < internalBit p
          · simp [h']
          · right; simp; omega
      simp only [addDot, List.any_cons]
      cases (cellDot s r c p).on <;> simp [hbit, Bool.or_assoc]

/-- The mask, bit by bit. -/
theorem cellDots_mask (s : State) (r c b : Nat) (hb : b < 8) :
    (cellDots s r c).mask.getLsbD b =
      dotPositions.any fun p => (cellDot s r c p).on && decide (b = internalBit p) := by
  rw [cellDots, (foldl_addDot s r c dotPositions _).2 b hb]
  simp

/-- "internal bit index = `row + col*4`" (41_dot_sampler.md R177). -/
theorem cellDots_mask_bit (s : State) (r c : Nat) {p : Nat × Nat} (h : p ∈ dotPositions) :
    (cellDots s r c).mask.getLsbD (internalBit p) = (cellDot s r c p).on := by
  have hp : ∀ q ∈ dotPositions, internalBit q < 8 ∧ ∀ q' ∈ dotPositions, internalBit q = internalBit q' → q' = q := by
    decide
  rw [cellDots_mask s r c _ (hp p h).1]
  cases hon : (cellDot s r c p).on
  · rw [List.any_eq_false]
    intro q hq
    by_cases hqp : internalBit p = internalBit q
    · rw [(hp p h).2 q hq hqp, hon]; simp
    · simp [hqp]
  · exact List.any_eq_true.2 ⟨p, h, by simp [hon]⟩

/-- "one bit that is 1 iff at least one of the 8 dots was degenerate" (41_dot_sampler.md R177). -/
theorem cellDots_degen (s : State) (r c : Nat) :
    (cellDots s r c).degen = dotPositions.any fun p => (cellDot s r c p).degen := by
  rw [cellDots, (foldl_addDot s r c dotPositions _).1, Bool.false_or]

/-- `Cell` is its eight dots. -/
theorem cellDots_congr {s t : State} {r c r' c' : Nat}
    (h : ∀ p ∈ dotPositions, cellDot t r' c' p = cellDot s r c p) : cellDots t r' c' = cellDots s r c := by
  have hstep : ∀ (l : List (Nat × Nat)), (∀ p ∈ l, cellDot t r' c' p = cellDot s r c p) →
      ∀ a, l.foldl (addDot t r' c') a = l.foldl (addDot s r c) a := by
    intro l
    induction l with
    | nil => intro _ a; rw [List.foldl_nil, List.foldl_nil]
    | cons p l ih =>
      intro hl a
      rw [List.foldl_cons, List.foldl_cons, ih fun q hq => hl q (List.mem_cons_of_mem _ hq)]
      simp only [addDot, hl p List.mem_cons_self]
  rw [cellDots, cellDots, hstep dotPositions h]

end Sys2Proof.Machine
end

