-- ==== Sys2Proof/Laws/Grom.lean ====
section
/-! SUPPORT. The glyph ROM: unpacking an entry gives back what it packs, so a read is the pair
(k, 0x2800 + ToStd k). -/

namespace Sys2Proof.Machine

/-- The number of an entry: the two fields do not overlap (20_memory.md R67). -/
theorem gromPack_toNat (m : DotMask) (c : BitVec 16) : (gromPack m c).toNat = m.toNat * 2 ^ 16 + c.toNat := by
  have hm := m.isLt
  have hc := c.isLt
  rw [gromPack, BitVec.toNat_or, BitVec.toNat_shiftLeft, BitVec.toNat_setWidth, BitVec.toNat_setWidth,
    Nat.shiftLeft_eq, Nat.mod_eq_of_lt (by omega), Nat.mod_eq_of_lt (by omega), Nat.mod_eq_of_lt (by omega),
    Nat.mul_comm, ← Nat.two_pow_add_eq_or_of_lt hc]

/-- Unpacking an entry gives back the fields it packs. -/
theorem gromFields_gromPack (m : DotMask) (c : BitVec 16) : gromFields (gromPack m c) = { mask := m, cp := c } := by
  have hm := m.isLt
  have hc := c.isLt
  simp only [gromFields, GromEntry.mk.injEq, ← BitVec.toNat_inj, BitVec.extractLsb'_toNat, gromPack_toNat,
    Nat.shiftRight_eq_div_pow]
  omega

/-- `GromRead(k) = (k, 0x2800 + ToStd(k))` (20_memory.md R68). -/
theorem gromRead_eq (k : DotMask) : gromRead k = { mask := k, cp := glyphBase + zext16 (toStd k) } :=
  gromFields_gromPack k _

@[simp] theorem gromRead_mask (k : DotMask) : (gromRead k).mask = k := by rw [gromRead_eq]

theorem gromRead_cp (k : DotMask) : (gromRead k).cp = glyphBase + zext16 (toStd k) := by rw [gromRead_eq]

/-- `0x2800 + ToStd(k)` is a glyph, its low 8 bits the ISO Pattern (30_encoding.md R95). -/
theorem gromRead_cp_toNat (k : DotMask) : (gromRead k).cp.toNat = 0x2800 + (toStd k).toNat := by
  have h := (toStd k).isLt
  simp only [gromRead_cp, glyphBase, zext16, BitVec.toNat_add, BitVec.toNat_setWidth]
  rw [Nat.mod_eq_of_lt (a := (toStd k).toNat) (by omega)]
  have h2 : (0x2800 : BitVec 16).toNat = 0x2800 := rfl
  rw [h2]
  omega

theorem gromRead_isGlyph (k : DotMask) : isGlyph (gromRead k).cp := by
  have h := (toStd k).isLt
  rw [isGlyph, gromRead_cp_toNat]
  omega

end Sys2Proof.Machine
end

