-- ==== Sys2Proof/Laws/Sparse.lean ====
section
/-! SUPPORT. Sparse storage: a read after a write, and every write keeps the canonical form. -/

namespace Sys2Proof.Machine

section
variable {κ α : Type} [DecidableEq κ] (lt : κ → κ → Bool)

@[simp] theorem sparseGet_nil (k : κ) : sparseGet k ([] : List (κ × α)) = none := rfl

@[simp] theorem sparseGet_sparseSet_self (k : κ) (v : α) (l : List (κ × α)) :
    sparseGet k (sparseSet lt k v l) = some v := by
  induction l with
  | nil => simp [sparseSet, sparseGet]
  | cons c l ih =>
    obtain ⟨k', v'⟩ := c
    simp only [sparseSet]
    split
    · simp [sparseGet]
    · split
      · simp [sparseGet]
      · simp [sparseGet, *]

theorem sparseGet_sparseSet_of_ne {k j : κ} (h : j ≠ k) (v : α) (l : List (κ × α)) :
    sparseGet j (sparseSet lt k v l) = sparseGet j l := by
  induction l with
  | nil => simp [sparseSet, sparseGet, h]
  | cons c l ih =>
    obtain ⟨k', v'⟩ := c
    simp only [sparseSet]
    split
    · next hk => subst hk; simp [sparseGet, h]
    · split
      · simp [sparseGet, h]
      · simp only [sparseGet, ih]

/-- Every key of a list after a write is the written key or was there before. -/
theorem sparseSet_key {k : κ} {v : α} {l : List (κ × α)} {c : κ × α} (h : c ∈ sparseSet lt k v l) :
    c.1 = k ∨ c ∈ l := by
  induction l with
  | nil => simp [sparseSet] at h; simp [h]
  | cons d l ih =>
    obtain ⟨k', v'⟩ := d
    simp only [sparseSet] at h
    split at h
    · rcases List.mem_cons.1 h with rfl | h
      · exact .inl rfl
      · exact .inr (List.mem_cons_of_mem _ h)
    · split at h
      · rcases List.mem_cons.1 h with rfl | h
        · exact .inl rfl
        · exact .inr h
      · rcases List.mem_cons.1 h with rfl | h
        · exact .inr List.mem_cons_self
        · exact (ih h).imp_right (List.mem_cons_of_mem _)

/-- A write keeps the keys strictly rising, when `lt` is a strict total order. -/
theorem sparseSorted_sparseSet (trans : ∀ a b c, lt a b = true → lt b c = true → lt a c = true)
    (total : ∀ a b, a ≠ b → lt a b = false → lt b a = true) (k : κ) (v : α) {l : List (κ × α)}
    (h : sparseSorted lt l) : sparseSorted lt (sparseSet lt k v l) := by
  induction l with
  | nil => simp [sparseSet, sparseSorted]
  | cons c l ih =>
    obtain ⟨k', v'⟩ := c
    obtain ⟨hhead, htail⟩ := List.pairwise_cons.1 h
    simp only [sparseSet]
    split
    · next hk => subst hk; exact List.pairwise_cons.2 ⟨hhead, htail⟩
    · split
      · next hlt =>
        refine List.pairwise_cons.2 ⟨fun d hd => ?_, h⟩
        rcases List.mem_cons.1 hd with rfl | hd
        · exact hlt
        · exact trans _ _ _ hlt (hhead d hd)
      · next hne hnlt =>
        refine List.pairwise_cons.2 ⟨fun d hd => ?_, ih htail⟩
        rcases sparseSet_key lt hd with hd | hd
        · simpa [hd] using total _ _ hne (by simpa using hnlt)
        · exact hhead d hd

end

theorem indexLt_trans (a b c : Nat) (h : indexLt a b = true) (h' : indexLt b c = true) :
    indexLt a c = true := by
  simp only [indexLt, decide_eq_true_eq] at *
  omega

theorem indexLt_total (a b : Nat) (h : a ≠ b) (h' : indexLt a b = false) : indexLt b a = true := by
  simp only [indexLt, decide_eq_true_eq, decide_eq_false_iff_not] at *
  omega

theorem rasterLt_trans (a b c : Nat × Nat) (h : rasterLt a b = true) (h' : rasterLt b c = true) :
    rasterLt a c = true := by
  simp only [rasterLt, Bool.or_eq_true, Bool.and_eq_true, decide_eq_true_eq] at *
  omega

theorem rasterLt_total (a b : Nat × Nat) (h : a ≠ b) (h' : rasterLt a b = false) : rasterLt b a = true := by
  have h2 : ¬ (a.1 = b.1 ∧ a.2 = b.2) := fun ⟨x, y⟩ => h (Prod.ext x y)
  simp only [rasterLt, Bool.or_eq_true, Bool.and_eq_true, decide_eq_true_eq, Bool.or_eq_false_iff,
    Bool.and_eq_false_iff, decide_eq_false_iff_not] at *
  omega

/-- `OutWrite` keeps OUT in canonical form. -/
theorem outWrite_sorted (k : Nat) (u : OutUnit) {o : OutSpace} (h : sparseSorted indexLt o) :
    sparseSorted indexLt (outWrite k u o) :=
  sparseSorted_sparseSet indexLt indexLt_trans indexLt_total k u h

/-- `OutWrite` changes one location (20_memory.md R72). -/
theorem outGet_outWrite (j k : Nat) (u : OutUnit) (o : OutSpace) :
    outGet j (outWrite k u o) = if j = k then some u else outGet j o := by
  split
  · next h => subst h; simp [outGet, outWrite]
  · next h => exact sparseGet_sparseSet_of_ne indexLt h u o

/-- Defining a pixel keeps both spaces in canonical form. -/
theorem pixWrite_wf (x y : Nat) (p : Word) {s : State} (h : Memory.wf s) : Memory.wf (pixWrite x y p s) :=
  ⟨h.1, sparseSorted_sparseSet rasterLt rasterLt_trans rasterLt_total (x, y) p h.2⟩

end Sys2Proof.Machine
end

