-- ==== Sys2Proof/Laws/Frame.lean ====
section
/-! SUPPORT. What `FRAME`'s loops leave: the count of units, the last cell, the degenerate bit and OUT,
location by location. -/

namespace Sys2Proof.Machine

/-- The glyph `FRAME` writes for cell (r, c) (42_frame.md R204). -/
def cellGlyph (s : State) (r c : Nat) : OutUnit := (gromRead (cellDots s r c).mask).cp

/-- The unit a completed `FRAME` of width `w` puts at location k: row `k / (w+2)`, and in it glyphs, then
CR, then LF (42_frame.md R205). -/
def gridUnit (s : State) (w k : Nat) : OutUnit :=
  if k % (w + 2) < w then cellGlyph s (k / (w + 2)) (k % (w + 2))
  else if k % (w + 2) = w then unitCR else unitLF

/-- The columns of one row. -/
theorem foldl_frameCell (s : State) (r n : Nat) (a : FrameAcc) :
    let b := (List.range n).foldl (frameCell s r) a
    b.k = a.k + n ∧
      b.degen = (a.degen || (List.range n).any fun c => (cellDots s r c).degen) ∧
      (∀ m, n = m + 1 → b.mask = (cellDots s r m).mask ∧ b.res = cellGlyph s r m) ∧
      ∀ j, outGet j b.out =
        if a.k ≤ j ∧ j < a.k + n then some (cellGlyph s r (j - a.k)) else outGet j a.out := by
  induction n with
  | zero => simp
  | succ n ih =>
    obtain ⟨hk, hd, -, ho⟩ := ih
    simp only [List.range_succ, List.foldl_append, List.foldl_cons, List.foldl_nil]
    refine ⟨by simp [frameCell, hk]; omega, ?_, ?_, fun j => ?_⟩
    · simp [frameCell, hd, Bool.or_assoc]
    · rintro m hm
      obtain rfl : n = m := by omega
      exact ⟨rfl, rfl⟩
    · simp only [frameCell, outGet_outWrite, ho, hk, cellGlyph]
      by_cases hj : j = a.k + n
      · subst hj; simp
      · by_cases hj' : a.k ≤ j ∧ j < a.k + n
        · rw [if_neg hj, if_pos hj', if_pos ⟨hj'.1, by omega⟩]
        · rw [if_neg hj, if_neg hj', if_neg (by omega)]

/-- The rows. -/
theorem foldl_frameRow (s : State) (n : Nat) (a : FrameAcc) (ha : a.k = 0) :
    let w := s.rw.cfgW.toNat
    let b := (List.range n).foldl (frameRow s) a
    b.k = (w + 2) * n ∧
      b.degen = (a.degen || (List.range n).any fun r =>
        (List.range w).any fun c => (cellDots s r c).degen) ∧
      (∀ m v, n = m + 1 → w = v + 1 → b.mask = (cellDots s m v).mask ∧ b.res = cellGlyph s m v) ∧
      ∀ j, outGet j b.out = if j < (w + 2) * n then some (gridUnit s w j) else outGet j a.out := by
  induction n with
  | zero => simp [ha]
  | succ n ih =>
    obtain ⟨hk, hd, -, ho⟩ := ih
    simp only [List.range_succ, List.foldl_append, List.foldl_cons, List.foldl_nil] at hk hd ho ⊢
    generalize (List.range n).foldl (frameRow s) a = b at hk hd ho ⊢
    obtain ⟨ck, cd, cl, co⟩ := foldl_frameCell s n s.rw.cfgW.toNat b
    simp only [frameRow, frameRowEnd] at *
    generalize (List.range s.rw.cfgW.toNat).foldl (frameCell s n) b = c at ck cd cl co ⊢
    have hmul : (s.rw.cfgW.toNat + 2) * (n + 1) = (s.rw.cfgW.toNat + 2) * n + (s.rw.cfgW.toNat + 2) :=
      Nat.mul_succ _ _
    refine ⟨by rw [ck, hk, hmul]; omega, ?_, ?_, fun j => ?_⟩
    · rw [cd, hd]; simp [Bool.or_assoc]
    · intro m v hm hv
      obtain rfl : n = m := by omega
      exact cl v hv
    · simp only [outGet_outWrite, co, ho, ck, hk, hmul]
      have hdiv : ∀ i, i < s.rw.cfgW.toNat + 2 →
          ((s.rw.cfgW.toNat + 2) * n + i) / (s.rw.cfgW.toNat + 2) = n ∧
            ((s.rw.cfgW.toNat + 2) * n + i) % (s.rw.cfgW.toNat + 2) = i := fun i hi => by
        rw [Nat.mul_add_div (by omega), Nat.mul_add_mod, Nat.div_eq_of_lt hi, Nat.mod_eq_of_lt hi]
        simp
      by_cases hlt : j < (s.rw.cfgW.toNat + 2) * n
      · rw [if_neg (by omega), if_neg (by omega), if_neg (by omega), if_pos hlt, if_pos (by omega)]
      · by_cases hge : (s.rw.cfgW.toNat + 2) * n + (s.rw.cfgW.toNat + 2) ≤ j
        · rw [if_neg (by omega), if_neg (by omega), if_neg (by omega), if_neg hlt, if_neg (by omega)]
        · obtain ⟨i, rfl⟩ : ∃ i, j = (s.rw.cfgW.toNat + 2) * n + i := ⟨_, (Nat.add_sub_of_le (by omega)).symm⟩
          obtain ⟨h1, h2⟩ := hdiv i (by omega)
          simp only [gridUnit, h1, h2]
          rcases lt_trichotomy i s.rw.cfgW.toNat with hi | hi | hi
          · rw [if_neg (by omega), if_neg (by omega), if_pos (by omega), if_pos (by omega), if_pos hi,
              Nat.add_sub_cancel_left]
          · rw [if_neg (by omega), if_pos (by omega), if_pos (by omega), if_neg (by omega), if_pos hi]
          · rw [if_pos (by omega), if_pos (by omega), if_neg (by omega), if_neg (by omega)]

theorem frameRows_k (s : State) : (frameRows s).k = (s.rw.cfgW.toNat + 2) * s.rw.cfgH.toNat :=
  (foldl_frameRow s s.rw.cfgH.toNat (frameStart s) rfl).1

theorem frameRows_degen (s : State) :
    (frameRows s).degen = (List.range s.rw.cfgH.toNat).any fun r =>
      (List.range s.rw.cfgW.toNat).any fun c => (cellDots s r c).degen := by
  rw [frameRows, (foldl_frameRow s s.rw.cfgH.toNat (frameStart s) rfl).2.1]
  simp [frameStart]

theorem frameRows_last (s : State) (hw : 1 ≤ s.rw.cfgW.toNat) (hh : 1 ≤ s.rw.cfgH.toNat) :
    (frameRows s).mask = (cellDots s (s.rw.cfgH.toNat - 1) (s.rw.cfgW.toNat - 1)).mask ∧
      (frameRows s).res = cellGlyph s (s.rw.cfgH.toNat - 1) (s.rw.cfgW.toNat - 1) :=
  (foldl_frameRow s s.rw.cfgH.toNat (frameStart s) rfl).2.2.1 _ _ (by omega) (by omega)

theorem frameRows_out (s : State) (j : Nat) :
    outGet j (frameRows s).out =
      if j < (s.rw.cfgW.toNat + 2) * s.rw.cfgH.toNat then some (gridUnit s s.rw.cfgW.toNat j)
      else outGet j s.out :=
  (foldl_frameRow s s.rw.cfgH.toNat (frameStart s) rfl).2.2.2 j

/-- `FRAME` keeps OUT in canonical form. -/
theorem frameRows_sorted (s : State) (h : sparseSorted indexLt s.out) :
    sparseSorted indexLt (frameRows s).out := by
  have hcell : ∀ r, ∀ l : List Nat, ∀ a : FrameAcc, sparseSorted indexLt a.out →
      sparseSorted indexLt (l.foldl (frameCell s r) a).out := by
    intro r l
    induction l with
    | nil => intro a ha; exact ha
    | cons c l ih => intro a ha; exact ih _ (outWrite_sorted _ _ ha)
  have hrow : ∀ l : List Nat, ∀ a : FrameAcc, sparseSorted indexLt a.out →
      sparseSorted indexLt (l.foldl (frameRow s) a).out := by
    intro l
    induction l with
    | nil => intro a ha; exact ha
    | cons r l ih =>
      intro a ha
      exact ih _ (outWrite_sorted _ _ (outWrite_sorted _ _ (hcell r _ a ha)))
  exact hrow _ _ h

theorem gridUnit_isOutChar (s : State) (w k : Nat) : isOutChar (gridUnit s w k) := by
  simp only [gridUnit]
  split
  · exact .inl (gromRead_isGlyph _)
  · split
    · exact .inr (.inl rfl)
    · exact .inr (.inr rfl)

end Sys2Proof.Machine
end

