-- ==== Sys2Proof/Laws/PerInstr.lean ====
section
/-! SUPPORT. The opcode table, row by row: the word of a well-formed command meets its row
(30_encoding.md R104: "the command is selected iff `d & mask = match`"). -/

namespace Sys2Proof.Laws.OpcodeRow

/-- The encoded word has the row's fixed bits. -/
def Statement (i : Instr) : Prop := i.wellFormed = true → encode i &&& rowMask i = rowMatch i

theorem tostd (m : DotMask) : Statement (.tostd m) := fun _ => by
  revert m; decide

theorem toint (m : DotMask) : Statement (.toint m) := fun _ => by
  revert m; decide

theorem glyph (m : DotMask) : Statement (.glyph m) := fun _ => by
  revert m; decide

theorem dotbit (p : Nat) : Statement (.dotbit p) := fun h => by
  have hp : p < 8 := by simpa [Instr.wellFormed] using h
  interval_cases p <;> decide

theorem sample : Statement .sample := fun _ => by decide

theorem cell : Statement .cell := fun _ => by decide

theorem frame : Statement .frame := fun _ => by decide

end Sys2Proof.Laws.OpcodeRow
end

