-- ==== Sys2Proof/Laws/State.lean ====
section
/-! SUPPORT. One lemma per field per update of the state, so that no proof unfolds a record update. -/

namespace Sys2Proof.Machine

/-! `setRes` -/

@[simp] theorem setRes_rw (v : BitVec 16) (s : State) : (setRes v s).rw = s.rw := rfl
@[simp] theorem setRes_status (v : BitVec 16) (s : State) : (setRes v s).status = s.status := rfl
@[simp] theorem setRes_res (v : BitVec 16) (s : State) : (setRes v s).res = v := rfl
@[simp] theorem setRes_mask (v : BitVec 16) (s : State) : (setRes v s).mask = s.mask := rfl
@[simp] theorem setRes_outlen (v : BitVec 16) (s : State) : (setRes v s).outlen = s.outlen := rfl
@[simp] theorem setRes_out (v : BitVec 16) (s : State) : (setRes v s).out = s.out := rfl
@[simp] theorem setRes_params (v : BitVec 16) (s : State) : (setRes v s).params = s.params := rfl
@[simp] theorem setRes_pix (v : BitVec 16) (s : State) : (setRes v s).pix = s.pix := rfl
@[simp] theorem setRes_host (v : BitVec 16) (s : State) : (setRes v s).host = s.host := rfl
@[simp] theorem setRes_replies (v : BitVec 16) (s : State) : (setRes v s).replies = s.replies := rfl
@[simp] theorem setRes_fresh (v : BitVec 16) (s : State) : (setRes v s).fresh = s.fresh := rfl

/-! `setMask` -/

@[simp] theorem setMask_rw (m : DotMask) (s : State) : (setMask m s).rw = s.rw := rfl
@[simp] theorem setMask_status (m : DotMask) (s : State) : (setMask m s).status = s.status := rfl
@[simp] theorem setMask_res (m : DotMask) (s : State) : (setMask m s).res = s.res := rfl
@[simp] theorem setMask_mask (m : DotMask) (s : State) : (setMask m s).mask = m := rfl
@[simp] theorem setMask_outlen (m : DotMask) (s : State) : (setMask m s).outlen = s.outlen := rfl
@[simp] theorem setMask_out (m : DotMask) (s : State) : (setMask m s).out = s.out := rfl
@[simp] theorem setMask_params (m : DotMask) (s : State) : (setMask m s).params = s.params := rfl
@[simp] theorem setMask_pix (m : DotMask) (s : State) : (setMask m s).pix = s.pix := rfl
@[simp] theorem setMask_host (m : DotMask) (s : State) : (setMask m s).host = s.host := rfl
@[simp] theorem setMask_replies (m : DotMask) (s : State) : (setMask m s).replies = s.replies := rfl
@[simp] theorem setMask_fresh (m : DotMask) (s : State) : (setMask m s).fresh = s.fresh := rfl

/-! `raise` -/

@[simp] theorem raise_rw (e : ErrCode) (s : State) : (raise e s).rw = s.rw := rfl
@[simp] theorem raise_status (e : ErrCode) (s : State) : (raise e s).status = statusRaise e s.status := rfl
@[simp] theorem raise_res (e : ErrCode) (s : State) : (raise e s).res = s.res := rfl
@[simp] theorem raise_mask (e : ErrCode) (s : State) : (raise e s).mask = s.mask := rfl
@[simp] theorem raise_outlen (e : ErrCode) (s : State) : (raise e s).outlen = s.outlen := rfl
@[simp] theorem raise_out (e : ErrCode) (s : State) : (raise e s).out = s.out := rfl
@[simp] theorem raise_params (e : ErrCode) (s : State) : (raise e s).params = s.params := rfl
@[simp] theorem raise_pix (e : ErrCode) (s : State) : (raise e s).pix = s.pix := rfl
@[simp] theorem raise_host (e : ErrCode) (s : State) : (raise e s).host = s.host := rfl
@[simp] theorem raise_replies (e : ErrCode) (s : State) : (raise e s).replies = s.replies := rfl
@[simp] theorem raise_fresh (e : ErrCode) (s : State) : (raise e s).fresh = s.fresh := rfl

/-! `complete` -/

@[simp] theorem complete_rw (g : Bool) (s : State) : (complete g s).rw = s.rw := rfl
@[simp] theorem complete_status (g : Bool) (s : State) : (complete g s).status = statusComplete g s.status := rfl
@[simp] theorem complete_res (g : Bool) (s : State) : (complete g s).res = s.res := rfl
@[simp] theorem complete_mask (g : Bool) (s : State) : (complete g s).mask = s.mask := rfl
@[simp] theorem complete_outlen (g : Bool) (s : State) : (complete g s).outlen = s.outlen := rfl
@[simp] theorem complete_out (g : Bool) (s : State) : (complete g s).out = s.out := rfl
@[simp] theorem complete_params (g : Bool) (s : State) : (complete g s).params = s.params := rfl
@[simp] theorem complete_pix (g : Bool) (s : State) : (complete g s).pix = s.pix := rfl
@[simp] theorem complete_host (g : Bool) (s : State) : (complete g s).host = s.host := rfl
@[simp] theorem complete_replies (g : Bool) (s : State) : (complete g s).replies = s.replies := rfl
@[simp] theorem complete_fresh (g : Bool) (s : State) : (complete g s).fresh = s.fresh := rfl

/-! `advanceFresh` -/

@[simp] theorem advanceFresh_rw (s : State) : (advanceFresh s).rw = s.rw := rfl
@[simp] theorem advanceFresh_status (s : State) : (advanceFresh s).status = s.status := rfl
@[simp] theorem advanceFresh_res (s : State) : (advanceFresh s).res = s.res := rfl
@[simp] theorem advanceFresh_mask (s : State) : (advanceFresh s).mask = s.mask := rfl
@[simp] theorem advanceFresh_outlen (s : State) : (advanceFresh s).outlen = s.outlen := rfl
@[simp] theorem advanceFresh_out (s : State) : (advanceFresh s).out = s.out := rfl
@[simp] theorem advanceFresh_params (s : State) : (advanceFresh s).params = s.params := rfl
@[simp] theorem advanceFresh_pix (s : State) : (advanceFresh s).pix = s.pix := rfl
@[simp] theorem advanceFresh_host (s : State) : (advanceFresh s).host = s.host := rfl
@[simp] theorem advanceFresh_replies (s : State) : (advanceFresh s).replies = s.replies := rfl
@[simp] theorem advanceFresh_fresh (s : State) : (advanceFresh s).fresh = s.fresh + 1 := rfl

/-! `frameStore` -/

@[simp] theorem frameStore_rw (a : FrameAcc) (s : State) : (frameStore a s).rw = s.rw := rfl
@[simp] theorem frameStore_status (a : FrameAcc) (s : State) : (frameStore a s).status = s.status := rfl
@[simp] theorem frameStore_res (a : FrameAcc) (s : State) : (frameStore a s).res = a.res := rfl
@[simp] theorem frameStore_mask (a : FrameAcc) (s : State) : (frameStore a s).mask = a.mask := rfl
@[simp] theorem frameStore_outlen (a : FrameAcc) (s : State) : (frameStore a s).outlen = BitVec.ofNat 32 a.k := rfl
@[simp] theorem frameStore_out (a : FrameAcc) (s : State) : (frameStore a s).out = a.out := rfl
@[simp] theorem frameStore_params (a : FrameAcc) (s : State) : (frameStore a s).params = s.params := rfl
@[simp] theorem frameStore_pix (a : FrameAcc) (s : State) : (frameStore a s).pix = s.pix := rfl
@[simp] theorem frameStore_host (a : FrameAcc) (s : State) : (frameStore a s).host = s.host := rfl
@[simp] theorem frameStore_replies (a : FrameAcc) (s : State) : (frameStore a s).replies = s.replies := rfl
@[simp] theorem frameStore_fresh (a : FrameAcc) (s : State) : (frameStore a s).fresh = s.fresh := rfl

/-! `pixWrite` -/

@[simp] theorem pixWrite_rw (x y : Nat) (p : Word) (s : State) : (pixWrite x y p s).rw = s.rw := rfl
@[simp] theorem pixWrite_status (x y : Nat) (p : Word) (s : State) : (pixWrite x y p s).status = s.status := rfl
@[simp] theorem pixWrite_res (x y : Nat) (p : Word) (s : State) : (pixWrite x y p s).res = s.res := rfl
@[simp] theorem pixWrite_mask (x y : Nat) (p : Word) (s : State) : (pixWrite x y p s).mask = s.mask := rfl
@[simp] theorem pixWrite_outlen (x y : Nat) (p : Word) (s : State) : (pixWrite x y p s).outlen = s.outlen := rfl
@[simp] theorem pixWrite_out (x y : Nat) (p : Word) (s : State) : (pixWrite x y p s).out = s.out := rfl
@[simp] theorem pixWrite_params (x y : Nat) (p : Word) (s : State) : (pixWrite x y p s).params = s.params := rfl
@[simp] theorem pixWrite_pix (x y : Nat) (p : Word) (s : State) : (pixWrite x y p s).pix = sparseSet rasterLt (x, y) p s.pix := rfl
@[simp] theorem pixWrite_host (x y : Nat) (p : Word) (s : State) : (pixWrite x y p s).host = s.host := rfl
@[simp] theorem pixWrite_replies (x y : Nat) (p : Word) (s : State) : (pixWrite x y p s).replies = s.replies := rfl
@[simp] theorem pixWrite_fresh (x y : Nat) (p : Word) (s : State) : (pixWrite x y p s).fresh = s.fresh := rfl

/-! `hostRegRead` -/

@[simp] theorem hostRegRead_rw (a : BitVec 8) (s : State) : (hostRegRead a s).rw = s.rw := rfl
@[simp] theorem hostRegRead_status (a : BitVec 8) (s : State) : (hostRegRead a s).status = s.status := rfl
@[simp] theorem hostRegRead_res (a : BitVec 8) (s : State) : (hostRegRead a s).res = s.res := rfl
@[simp] theorem hostRegRead_mask (a : BitVec 8) (s : State) : (hostRegRead a s).mask = s.mask := rfl
@[simp] theorem hostRegRead_outlen (a : BitVec 8) (s : State) : (hostRegRead a s).outlen = s.outlen := rfl
@[simp] theorem hostRegRead_out (a : BitVec 8) (s : State) : (hostRegRead a s).out = s.out := rfl
@[simp] theorem hostRegRead_params (a : BitVec 8) (s : State) : (hostRegRead a s).params = s.params := rfl
@[simp] theorem hostRegRead_pix (a : BitVec 8) (s : State) : (hostRegRead a s).pix = s.pix := rfl
@[simp] theorem hostRegRead_host (a : BitVec 8) (s : State) : (hostRegRead a s).host = s.host := rfl
@[simp] theorem hostRegRead_replies (a : BitVec 8) (s : State) : (hostRegRead a s).replies = .reg (readIndex s a) :: s.replies := rfl
@[simp] theorem hostRegRead_fresh (a : BitVec 8) (s : State) : (hostRegRead a s).fresh = s.fresh := rfl

/-! `hardReset` -/

@[simp] theorem hardReset_rw (s : State) : (hardReset s).rw = RwRegs.reset := rfl
@[simp] theorem hardReset_status (s : State) : (hardReset s).status = 0 := rfl
@[simp] theorem hardReset_res (s : State) : (hardReset s).res = 0 := rfl
@[simp] theorem hardReset_mask (s : State) : (hardReset s).mask = 0 := rfl
@[simp] theorem hardReset_outlen (s : State) : (hardReset s).outlen = 0 := rfl
@[simp] theorem hardReset_out (s : State) : (hardReset s).out = [] := rfl
@[simp] theorem hardReset_params (s : State) : (hardReset s).params = s.params := rfl
@[simp] theorem hardReset_pix (s : State) : (hardReset s).pix = s.pix := rfl
@[simp] theorem hardReset_host (s : State) : (hardReset s).host = s.host := rfl
@[simp] theorem hardReset_replies (s : State) : (hardReset s).replies = s.replies := rfl
@[simp] theorem hardReset_fresh (s : State) : (hardReset s).fresh = s.fresh := rfl

/-! `withFetchWord` -/

@[simp] theorem withFetchWord_rw (s : State) (n w : Nat) : (s.withFetchWord n w).rw = s.rw := rfl
@[simp] theorem withFetchWord_status (s : State) (n w : Nat) : (s.withFetchWord n w).status = s.status := rfl
@[simp] theorem withFetchWord_res (s : State) (n w : Nat) : (s.withFetchWord n w).res = s.res := rfl
@[simp] theorem withFetchWord_mask (s : State) (n w : Nat) : (s.withFetchWord n w).mask = s.mask := rfl
@[simp] theorem withFetchWord_outlen (s : State) (n w : Nat) : (s.withFetchWord n w).outlen = s.outlen := rfl
@[simp] theorem withFetchWord_out (s : State) (n w : Nat) : (s.withFetchWord n w).out = s.out := rfl
@[simp] theorem withFetchWord_params (s : State) (n w : Nat) : (s.withFetchWord n w).params = s.params := rfl
@[simp] theorem withFetchWord_pix (s : State) (n w : Nat) : (s.withFetchWord n w).pix = s.pix := rfl
@[simp] theorem withFetchWord_host (s : State) (n w : Nat) : (s.withFetchWord n w).host = .regWrite 0 (BitVec.ofNat 32 (w % 2 ^ n)) :: s.host := rfl
@[simp] theorem withFetchWord_replies (s : State) (n w : Nat) : (s.withFetchWord n w).replies = s.replies := rfl
@[simp] theorem withFetchWord_fresh (s : State) (n w : Nat) : (s.withFetchWord n w).fresh = s.fresh := rfl

/-! `writeIndex` changes the RW registers at most -/

theorem writeIndex_eq (a : BitVec 8) (d : Word) (s : State) :
    writeIndex a d s = { s with rw := (writeIndex a d s).rw } := by
  unfold writeIndex
  split <;> rfl

@[simp] theorem writeIndex_status (a : BitVec 8) (d : Word) (s : State) : (writeIndex a d s).status = s.status := by
  rw [writeIndex_eq]
@[simp] theorem writeIndex_res (a : BitVec 8) (d : Word) (s : State) : (writeIndex a d s).res = s.res := by
  rw [writeIndex_eq]
@[simp] theorem writeIndex_mask (a : BitVec 8) (d : Word) (s : State) : (writeIndex a d s).mask = s.mask := by
  rw [writeIndex_eq]
@[simp] theorem writeIndex_outlen (a : BitVec 8) (d : Word) (s : State) : (writeIndex a d s).outlen = s.outlen := by
  rw [writeIndex_eq]
@[simp] theorem writeIndex_out (a : BitVec 8) (d : Word) (s : State) : (writeIndex a d s).out = s.out := by
  rw [writeIndex_eq]
@[simp] theorem writeIndex_params (a : BitVec 8) (d : Word) (s : State) : (writeIndex a d s).params = s.params := by
  rw [writeIndex_eq]
@[simp] theorem writeIndex_pix (a : BitVec 8) (d : Word) (s : State) : (writeIndex a d s).pix = s.pix := by
  rw [writeIndex_eq]
@[simp] theorem writeIndex_host (a : BitVec 8) (d : Word) (s : State) : (writeIndex a d s).host = s.host := by
  rw [writeIndex_eq]
@[simp] theorem writeIndex_replies (a : BitVec 8) (d : Word) (s : State) : (writeIndex a d s).replies = s.replies := by
  rw [writeIndex_eq]
@[simp] theorem writeIndex_fresh (a : BitVec 8) (d : Word) (s : State) : (writeIndex a d s).fresh = s.fresh := by
  rw [writeIndex_eq]

/-- Taking a transaction off the pending list touches nothing else. -/
theorem hostStep_cons (s : State) (op : HostOp) (rest : List HostOp) (h : s.host = op :: rest) :
    step s = transact op { s with host := rest } := by
  simp only [step, hostStep, h]

theorem hostStep_nil (s : State) (h : s.host = []) : step s = .next s := by
  simp only [step, hostStep, h]

end Sys2Proof.Machine
end

