-- ==== Sys2Proof/Laws/Step.lean ====
section
/-! SUPPORT. What a command, the issue of a word, and a step can do, said once. -/

namespace Sys2Proof.Machine

/-! ### The commands, by cases of their checks -/

theorem exec_tostd (m : DotMask) (s : State) :
    exec (.tostd m) s = .next (complete false (setRes (zext16 (toStd m)) s)) := rfl

theorem exec_toint (m : DotMask) (s : State) :
    exec (.toint m) s = .next (complete false (setRes (zext16 (toInt m)) s)) := rfl

theorem exec_glyph (m : DotMask) (s : State) :
    exec (.glyph m) s = .next (complete false (setMask m (setRes (gromRead m).cp s))) := by
  simp only [exec, execGlyph, gromRead_mask]

theorem exec_dotbit (p : Nat) (s : State) :
    exec (.dotbit p) s = .next (complete false (setRes (zext16 (dotMask p)) s)) := rfl

theorem exec_sample_valid {s : State} (h : cfgValid s.params s.rw = true) :
    exec .sample s =
      .next (advanceFresh (complete (sampleDot s s.rw.xs.toNat s.rw.ys.toNat).degen
        (setRes (bit16 (sampleDot s s.rw.xs.toNat s.rw.ys.toNat).on) s))) := by
  simp only [exec, execSample, if_pos h]

theorem exec_sample_invalid {s : State} (h : cfgValid s.params s.rw = false) :
    exec .sample s = .next (raise .cfgErr s) := by
  simp [exec, execSample, h]

theorem exec_cell_valid {s : State} (h : cfgValid s.params s.rw = true) (hr : cellInRange s.rw = true) :
    exec .cell s =
      .next (advanceFresh (complete (cellDots s s.rw.row.toNat s.rw.col.toNat).degen
        (setRes (cellGlyph s s.rw.row.toNat s.rw.col.toNat)
          (setMask (cellDots s s.rw.row.toNat s.rw.col.toNat).mask s)))) := by
  simp only [exec, execCell, if_pos h, if_pos hr, cellGlyph]

theorem exec_cell_outside {s : State} (h : cfgValid s.params s.rw = true) (hr : cellInRange s.rw = false) :
    exec .cell s = .next (raise .rangeErr s) := by
  simp [exec, execCell, h, hr]

theorem exec_cell_invalid {s : State} (h : cfgValid s.params s.rw = false) :
    exec .cell s = .next (raise .cfgErr s) := by
  simp [exec, execCell, h]

theorem exec_frame_valid {s : State} (h : cfgValid s.params s.rw = true)
    (hd : frameDimsOk s.params s.rw = true) :
    exec .frame s = .next (advanceFresh (complete (frameRows s).degen (frameStore (frameRows s) s))) := by
  simp only [exec, execFrame, if_pos h, if_pos hd]

theorem exec_frame_dims {s : State} (h : cfgValid s.params s.rw = true)
    (hd : frameDimsOk s.params s.rw = false) : exec .frame s = .next (raise .dimErr s) := by
  simp [exec, execFrame, h, hd]

theorem exec_frame_invalid {s : State} (h : cfgValid s.params s.rw = false) :
    exec .frame s = .next (raise .cfgErr s) := by
  simp [exec, execFrame, h]

/-! ### Any command -/

/-- Everything a command can do: raise one error, or complete and write some of its results
(60_exceptions.md R225, R233). -/
theorem exec_cases (i : Instr) (s : State) :
    (∃ e, exec i s = .next (raise e s)) ∨
      ∃ g v m o n f, exec i s = .next
        { s with status := statusComplete g s.status, res := v, mask := m, out := o, outlen := n, fresh := f } := by
  cases i with
  | tostd m => exact .inr ⟨false, _, _, _, _, _, rfl⟩
  | toint m => exact .inr ⟨false, _, _, _, _, _, rfl⟩
  | glyph m => exact .inr ⟨false, _, _, _, _, _, rfl⟩
  | dotbit p => exact .inr ⟨false, _, _, _, _, _, rfl⟩
  | sample =>
    cases h : cfgValid s.params s.rw
    · exact .inl ⟨_, exec_sample_invalid h⟩
    · exact .inr ⟨_, _, _, _, _, _, exec_sample_valid h⟩
  | cell =>
    cases h : cfgValid s.params s.rw
    · exact .inl ⟨_, exec_cell_invalid h⟩
    · cases hr : cellInRange s.rw
      · exact .inl ⟨_, exec_cell_outside h hr⟩
      · exact .inr ⟨_, _, _, _, _, _, exec_cell_valid h hr⟩
  | frame =>
    cases h : cfgValid s.params s.rw
    · exact .inl ⟨_, exec_frame_invalid h⟩
    · cases hd : frameDimsOk s.params s.rw
      · exact .inl ⟨_, exec_frame_dims h hd⟩
      · exact .inr ⟨_, _, _, _, _, _, exec_frame_valid h hd⟩

theorem issue_ok {d : Word} {i : Instr} (h : decode d = .ok i) (s : State) : issue d s = exec i s := by
  simp only [issue, h]

theorem issue_illegal {d : Word} {w : IllegalWord} (h : decode d = .illegal w) (s : State) :
    issue d s = .next (raise .illCmd s) := by
  simp only [issue, h]

/-- Everything an issued word can do. -/
theorem issue_cases (d : Word) (s : State) :
    (∃ e, issue d s = .next (raise e s)) ∨
      ∃ g v m o n f, issue d s = .next
        { s with status := statusComplete g s.status, res := v, mask := m, out := o, outlen := n, fresh := f } := by
  cases h : decode d with
  | ok i => rw [issue_ok h]; exact exec_cases i s
  | illegal w => exact .inl ⟨_, issue_illegal h s⟩

/-! ### Any transaction -/

theorem regWrite_cmd (d : Word) (s : State) : transact (.regWrite 0 d) s = issue d s := by
  simp [transact, hostRegWrite]

theorem regWrite_other {a : BitVec 8} (h : a ≠ 0) (d : Word) (s : State) :
    transact (.regWrite a d) s = .next (writeIndex a d s) := by
  simp only [transact, hostRegWrite, if_neg h]

/-- Everything a read of OUT can do (20_memory.md R71). -/
theorem outRead_cases (k : Nat) (s : State) :
    (k < outLocations ∧ ∃ u f, transact (.outRead k) s =
        .next { s with replies := .out u :: s.replies, fresh := f }) ∨
      (outLocations ≤ k ∧ transact (.outRead k) s = .fault .noSuchOutLocation) := by
  by_cases h : k < outLocations
  · refine .inl ⟨h, ?_⟩
    simp only [transact, hostOutRead, if_pos h]
    cases outGet k s.out with
    | none => exact ⟨_, _, rfl⟩
    | some u => exact ⟨u, s.fresh, rfl⟩
  · exact .inr ⟨Nat.le_of_not_lt h, by simp only [transact, hostOutRead, if_neg h]⟩

end Sys2Proof.Machine
end

