-- ==== Sys2Proof/Tests/Slice0.lean ====
section
/-! SUPPORT. The model's own tests: expected values are those of `spec/` (the vector or rule is named), and
for each obligation with hypotheses a state that meets them. -/

open Sys2Proof Sys2Proof.Machine

namespace Sys2Proof.Tests

/-! ### Small states -/

/-- One cell, θ = 1/2, E = 1 (95_test_vectors.md, the setting of S1 to S19 and P1). -/
def oneCell : State :=
  { State.reset with rw := { RwRegs.reset with cfgW := 1, cfgH := 1, cfgTheta := 0x8000, cfgEdge := 0x100 } }

/-- A declared buffer of w by h pixels, all defined, in raster order. -/
def image (w h : Nat) (f : Nat → Nat → Word) (s : State) : State :=
  { s with
    rw := { s.rw with imgW := BitVec.ofNat 32 w, imgH := BitVec.ofNat 32 h }
    pix := (List.range h).flatMap fun y => (List.range w).map fun x => ((x, y), f x y) }

def black (_ _ : Nat) : Word := 0
def white (_ _ : Nat) : Word := 0x00FFFFFF
def anchor (x y : Nat) (s : State) : State :=
  { s with rw := { s.rw with xs := BitVec.ofNat 32 x, ys := BitVec.ofNat 32 y } }
def at_ (row col : Nat) (s : State) : State :=
  { s with rw := { s.rw with row := BitVec.ofNat 32 row, col := BitVec.ofNat 32 col } }
def weights (theta edge : Nat) (s : State) : State :=
  { s with rw := { s.rw with cfgTheta := BitVec.ofNat 32 theta, cfgEdge := BitVec.ofNat 32 edge } }
def grid (w h t l : Nat) (s : State) : State :=
  { s with rw := { s.rw with cfgW := BitVec.ofNat 32 w, cfgH := BitVec.ofNat 32 h,
                             cfgT := BitVec.ofNat 32 t, cfgL := BitVec.ofNat 32 l } }
def pending (op : HostOp) (s : State) : State := { s with host := [op] }
def unchecked (s : State) : State := { s with params := { s.params with frameDimcheck := false } }

/-- The outcome is a next state that passes the check. -/
def nextIs (o : Host.Outcome State Fault Refusal) (check : State → Bool) : Bool :=
  match o with
  | .next t => check t
  | .fault _ => false
  | .refused _ => false

theorem exists_of_nextIs {o : Host.Outcome State Fault Refusal} {check : State → Bool}
    (h : nextIs o check = true) : ∃ t, o = .next t ∧ check t = true := by
  cases o with
  | next t => exact ⟨t, rfl, h⟩
  | fault r => cases h
  | refused r => cases h

/-! ### WellFormed, decode, encode -/

theorem test_wellFormed_refuses_dotbit_8 : (Instr.dotbit 8).wellFormed = false := by decide
theorem test_wellFormed_accepts_every_command :
    [Instr.tostd 0xFF, .toint 0, .glyph 0xA5, .dotbit 0, .dotbit 7, .sample, .cell, .frame].all
      (·.wellFormed) := by decide

/-- The words of 30_encoding.md R104 written out bit by bit. -/
theorem test_decode_every_row :
    decode 0b0000_0000_0000_0000_0001_0000_1111_0000#32 = .ok (.tostd 0xF0) ∧
    decode 0b0000_0000_0000_0000_0010_0000_0000_0001#32 = .ok (.toint 0x01) ∧
    decode 0b0000_0000_0000_0000_0011_0000_0101_1010#32 = .ok (.glyph 0x5A) ∧
    decode 0b0000_0000_0000_0000_0100_0000_0000_0101#32 = .ok (.dotbit 5) ∧
    decode 0b0000_0000_0000_0000_0101_0000_0000_0000#32 = .ok .sample ∧
    decode 0b0000_0000_0000_0000_0110_0000_0000_0000#32 = .ok .cell ∧
    decode 0b0000_0000_0000_0000_0111_0000_0000_0000#32 = .ok .frame := by decide

/-- 95_test_vectors.md V4, its illegal rows. -/
theorem test_decode_illegal :
    decode 0x00000000#32 = .illegal .noSuchOp ∧ decode 0x00000FFF#32 = .illegal .zNotZero ∧
    decode 0x00001100#32 = .illegal .zNotZero ∧ decode 0x00011001#32 = .illegal .hiNotZero ∧
    decode 0x80003001#32 = .illegal .hiNotZero ∧ decode 0x00003101#32 = .illegal .zNotZero ∧
    decode 0x00004008#32 = .illegal .dotbitImmHigh ∧ decode 0x00005001#32 = .illegal .immNotZero ∧
    decode 0x00006080#32 = .illegal .immNotZero ∧ decode 0x00007001#32 = .illegal .immNotZero ∧
    decode 0x00008000#32 = .illegal .noSuchOp ∧ decode 0x0000F000#32 = .illegal .noSuchOp ∧
    decode 0xFFFFFFFF#32 = .illegal .hiNotZero := by decide

/-- The words of 95_test_vectors.md V1, V3. -/
theorem test_encode :
    encode (.tostd 0x08) = 0x00001008 ∧ encode (.toint 0xA5) = 0x000020A5 ∧ encode (.glyph 0xFF) = 0x000030FF ∧
    encode (.dotbit 7) = 0x00004007 ∧ encode .sample = 0x00005000 ∧ encode .cell = 0x00006000 ∧
    encode .frame = 0x00007000 := by decide

theorem test_decodeTableWord :
    decodeTableWord 32 0x3001 = some (.glyph 0x01) ∧ decodeTableWord 16 0x4007 = some (.dotbit 7) ∧
    decodeTableWord 32 0x4008 = none := by decide

/-! ### The cell encoder -/

/-- 95_test_vectors.md V1: 0x08 pins the direction, 0xA5 all bits. -/
theorem test_tostd :
    nextIs (exec (.tostd 0x08) State.reset) (fun t => t.res == 0x0040 && t.mask == 0) ∧
    nextIs (exec (.tostd 0xA5) State.reset) (fun t => t.res == 0x0095 && t.status == 0) := by decide
theorem test_toint :
    nextIs (exec (.toint 0x08) State.reset) (fun t => t.res == 0x0010 && t.mask == 0) ∧
    nextIs (exec (.toint 0xA5) State.reset) (fun t => t.res == 0x00C5 && t.status == 0) := by decide
theorem test_glyph :
    nextIs (exec (.glyph 0x5A) State.reset) (fun t => t.res == 0x286A && t.mask == 0x5A) := by decide
/-- 95_test_vectors.md P5 step 4: `LASTDEGEN` cleared, `S_DEGEN` kept. -/
theorem test_glyph_clears_lastdegen :
    nextIs (exec (.glyph 0x00) { State.reset with status := 0x1010 })
      (fun t => t.status == 0x1000 && t.res == 0x2800) := by decide
theorem test_dotbit :
    nextIs (exec (.dotbit 3) State.reset) (fun t => t.res == 0x0008 && t.mask == 0) ∧
    nextIs (exec (.dotbit 7) State.reset) (fun t => t.res == 0x0080) := by decide

/-- 40_cell_encoder.md R140: one entry of each row of the table, no two in one column. -/
theorem test_grom_table :
    [(0x08, 0x2840), (0x19, 0x2849), (0x2A, 0x2852), (0x3B, 0x285B), (0x4C, 0x2864), (0x5D, 0x286D),
      (0x6E, 0x2876), (0x7F, 0x287F), (0x80, 0x2880), (0x91, 0x2889), (0xA2, 0x2892), (0xB3, 0x289B),
      (0xC4, 0x28A4), (0xD5, 0x28AD), (0xE6, 0x28B6), (0xF7, 0x28BF)].all
        (fun e : Nat × Nat => (gromRead (BitVec.ofNat 8 e.1)).cp == BitVec.ofNat 16 e.2) := by decide

/-- 20_memory.md R67 on two entries of R140: mask 0xA5 in bits 23:16, 0x2895 in bits 15:0. -/
theorem test_grom_word : gromWord 0xA5 = 0xA52895#24 ∧ gromWord 0x08 = 0x082840#24 := by decide

/-- 95_test_vectors.md V2: the sum over all v of v * ToStd(v). -/
theorem test_tostd_sum :
    ((List.range 256).map fun v => v * (toStd (BitVec.ofNat 8 v)).toNat).sum = 5416320 := by decide +kernel

/-! ### The dot sampler -/

/-- 95_test_vectors.md K1: an arbitrary pixel; bits 31:24 are ignored. -/
theorem test_darkness : darkness 0x00123456 = 2077736 ∧ darkness 0xFF123456 = 2077736 := by decide +kernel

/-- 95_test_vectors.md S4, S5: an exact tie is on, θ one step higher is off. -/
def s4 (theta : Nat) : State :=
  anchor 1 1 (weights theta 0 (image 4 4 (fun x y => if (x = 1 ∨ x = 2) ∧ y = 1 then 0 else 0x00FFFFFF) oneCell))
theorem test_sample_tie :
    nextIs (exec .sample (s4 0x8000)) (fun t => t.res == 1 && t.status == 0) ∧
    nextIs (exec .sample (s4 0x8001)) (fun t => t.res == 0 && t.status == 0) := by decide +kernel

/-- 95_test_vectors.md S14, S19: rim only with E = 0; an anchor that must not wrap. -/
def s14 : State := anchor 4 1 (weights 0x8000 0 (image 4 4 black oneCell))
theorem test_sample_degenerate :
    nextIs (exec .sample s14) (fun t => t.res == 0 && t.status == 0x1010) ∧
    nextIs (exec .sample (anchor 0xFFFFFFFF 0 (image 4 4 black oneCell)))
      (fun t => t.res == 0 && t.status == 0x1010) := by decide +kernel

/-- The buffer of 95_test_vectors.md P1. -/
def p1Pixel (x y : Nat) : Word :=
  let g := if y ≤ 1 then [0, 0, 128].getD x 255 else if y = 2 then [64, 64, 159].getD x 255 else 255
  BitVec.ofNat 32 (g * 0x10101)
/-- 95_test_vectors.md F4. -/
theorem test_cell :
    nextIs (exec .cell (image 5 11 p1Pixel oneCell))
      (fun t => t.status == 0 && t.mask == 0x01 && t.res == 0x2801 && t.outlen == 0 && t.out == []) := by
  decide +kernel
/-- 95_test_vectors.md F6, the cell (0, 1), on F5's buffer. -/
def f5 : State :=
  image 11 26 (fun x y => if x * x + y * y < 150 then 0 else 0x00FFFFFF) (grid 2 2 0 1 oneCell)
theorem test_cell_second_column :
    nextIs (exec .cell (at_ 0 1 f5)) (fun t => t.mask == 0x7F && t.res == 0x287F) := by decide +kernel

/-- 95_test_vectors.md F5. -/
theorem test_frame :
    nextIs (exec .frame f5) (fun t => t.status == 0 && t.outlen == 8 && t.mask == 0 && t.res == 0x2800 &&
      t.out == [(0, 0x28FF), (1, 0x287F), (2, 0x000D), (3, 0x000A),
        (4, 0x2800), (5, 0x2800), (6, 0x000D), (7, 0x000A)]) := by decide +kernel
/-- 95_test_vectors.md F7. -/
def f7 : State := unchecked (image 6 11 black (grid 2 1 0 0 oneCell))
theorem test_frame_unchecked :
    nextIs (exec .frame f7) (fun t => t.status == 0x1010 && t.outlen == 4 && t.mask == 0x0F &&
      t.out == [(0, 0x28FF), (1, 0x2847), (2, 0x000D), (3, 0x000A)]) := by decide +kernel

/-! ### Errors, registers, steps -/

/-- 95_test_vectors.md P4 steps 1, 2, 8, 10, 12, each from the state before it. -/
def p4 (status : Word) : State := { image 4 11 black oneCell with status := status, res := 0x2801, mask := 0x01 }
theorem test_errors :
    nextIs (exec .sample State.reset) (fun t => t.status == 0x204) ∧
    nextIs (issue 0 { State.reset with status := 0x204 }) (fun t => t.status == 0x302) ∧
    nextIs (exec .cell (weights 0x10001 0x100 (at_ 0 1 (p4 0x300)))) (fun t => t.status == 0x304) ∧
    nextIs (exec .cell (at_ 0 1 (p4 0x304))) (fun t => t.status == 0xB08 && t.res == 0x2801) ∧
    nextIs (exec .frame (p4 0xB08)) (fun t => t.status == 0xF06 && t.mask == 0x01 && t.out == []) := by
  decide +kernel

/-- 95_test_vectors.md G1. -/
theorem test_geometry :
    (readIndex (grid 80 24 0 0 oneCell) 0x10 = 479 ∧ readIndex (grid 80 24 0 0 oneCell) 0x11 = 287) ∧
    (readIndex (grid 65535 65535 255 255 oneCell) 0x10 = 50526719 ∧
      readIndex (grid 65535 65535 255 255 oneCell) 0x11 = 50919929) ∧
    (readIndex (grid 65536 1 0 0 oneCell) 0x10 = 0 ∧ cfgValid Config.defaults (grid 65536 1 0 0 oneCell).rw = false) := by
  decide

/-- 10_state.md R49: an RW register takes all 32 bits, an RO register none. -/
theorem test_register_write :
    nextIs (step (pending (.regWrite 0x07 0xDEADBEEF) oneCell))
      (fun t => readIndex t 0x07 == 0xDEADBEEF && readIndex t 0x06 == 0x8000) ∧
    nextIs (step (pending (.regWrite 0x0E 0xFFFFFFFF) oneCell)) (fun t => readIndex t 0x0E == 0) := by decide

theorem test_fetched_word_runs :
    nextIs (step (State.reset.withFetchWord 32 0x3001)) (fun t => t.res == 0x2801 && t.mask == 1) := by decide
/-- 70_reset_and_hazards.md R263, log 20: with no transaction nothing happens. -/
theorem test_idle : nextIs (step oneCell) (fun t => t == oneCell) := by decide +kernel
/-- 70_reset_and_hazards.md R260: PIX stays. -/
theorem test_reset_keeps_pix :
    nextIs (step (pending .reset f7)) (fun t => t.status == 0 && t.rw == RwRegs.reset && t.pix == f7.pix) := by
  decide +kernel

/-! ### Witnesses: the hypotheses of each obligation are met -/

theorem witness_DecodeOfEncodeIsTheCommand :
    (Instr.dotbit 0).wellFormed = true ∧ (Instr.dotbit 7).wellFormed = true := by decide
theorem witness_EncodeOfDecodeIsTheWord : decode 0x4007#32 = .ok (.dotbit 7) := by decide
theorem witness_IllegalWordsEndIllcmd : ∃ why, decode 0x00004008#32 = .illegal why := ⟨.dotbitImmHigh, by decide⟩
theorem witness_DotbitLeavesOneBit :
    0 < 8 ∧ 7 < 8 ∧ (0x4008#32).extractLsb' 12 4 = 4#4 ∧ (0x4008#32).extractLsb' 3 5 ≠ 0#5 := by decide
theorem witness_CellEncoderReadsOnlyItsOperand :
    (Instr.glyph 0 ≠ .sample ∧ Instr.glyph 0 ≠ .cell ∧ Instr.glyph 0 ≠ .frame) ∧
    (∃ m, Instr.glyph 0 = .glyph m) ∧ (∀ m, Instr.dotbit 7 ≠ .glyph m) ∧
    (1 ≤ ((0x1000#32).extractLsb' 12 4).toNat ∧ ((0x40FF#32).extractLsb' 12 4).toNat ≤ 4) :=
  ⟨by decide, ⟨0, rfl⟩, fun _ h => (nomatch h), by decide⟩
theorem witness_MeanDarknessIsInUnitInterval :
    0 < den (s4 0x8000).params.fe (s4 0x8000).rw.cfgEdge.toNat (accumulate (s4 0x8000) 1 1) := by decide +kernel
theorem witness_DotIsOnIffMeanDarknessReachesTheta :
    0 < den s14.params.fe s14.rw.cfgEdge.toNat (accumulate s14 3 3) := by decide +kernel

/-- 95_test_vectors.md S17 and S17'. -/
def s17 (p : Config.DegenPolicy) : State :=
  let s := weights 0 0x100 oneCell
  { s with params := { s.params with degenPolicy := p } }
theorem witness_DegenerateDotsFollowThePolicy :
    ((sampleDot (s17 .off) 0 0).degen = true ∧ (s17 .off).params.degenPolicy = .off) ∧
    ((sampleDot (s17 .darkness0) 0 0).degen = true ∧ (s17 .darkness0).params.degenPolicy = .darkness0) ∧
    (cfgValid s14.params s14.rw = true ∧ (sampleDot s14 s14.rw.xs.toNat s14.rw.ys.toNat).degen = true) ∧
    (cfgValid (s17 .off).params (s17 .off).rw = true ∧ (s17 .off).rw.row.toNat < (s17 .off).rw.cfgH.toNat ∧
      (s17 .off).rw.col.toNat < (s17 .off).rw.cfgW.toNat ∧ (cellDot (s17 .off) 0 0 (1, 3)).degen = true) ∧
    (cfgValid f7.params f7.rw = true ∧ f7.params.frameDimcheck = false ∧ 0 < f7.rw.cfgH.toNat ∧
      1 < f7.rw.cfgW.toNat ∧ (cellDot f7 0 1 (1, 3)).degen = true) := by decide +kernel
theorem witness_SampleLeavesTheDot :
    cfgValid s14.params s14.rw = true ∧ cfgValid State.reset.params State.reset.rw = false := by decide
/-- Both ends of each clause: anchors W and W + 1, θ = 0 and θ = 1. -/
theorem witness_SampleCornerCases :
    (s14.rw.imgW.toNat + 1 ≤ 5 ∧ s14.rw.imgH.toNat + 1 ≤ 5 ∧ (s17 .off).rw.imgW = 0) ∧
    (s14.rw.imgW ≠ 0 ∧ 0 < s14.rw.imgH.toNat ∧ 3 < s14.rw.imgH.toNat) ∧
    ((s4 0).rw.cfgTheta = 0 ∧ (sampleDot (s4 0) 1 1).degen = false) ∧
    ((s4 0x10000).rw.cfgTheta.toNat = 2 ^ (s4 0x10000).params.ft ∧ (sampleDot (s4 0x10000) 1 1).degen = false) := by
  decide +kernel

/-- A buffer of pixels all alike, seen through the model's read of one pixel. -/
theorem pixWord_image_5_11 (v : Word) :
    ∀ x y : Nat, inImage (image 5 11 (fun _ _ => v) oneCell) x y →
      pixWord (image 5 11 (fun _ _ => v) oneCell) x y = v := by
  intro x y h
  have hx : x < 5 := by have := h.1.2; simp [image] at this; omega
  have hy : y < 11 := by have := h.2.2; simp [image] at this; omega
  interval_cases x <;> interval_cases y <;> rfl

theorem witness_AllWhiteImageGivesEmptyGlyph :
    let s := image 5 11 white oneCell
    (∀ x y : Nat, inImage s x y → (pixWord s x y).extractLsb' 0 24 = 0xFFFFFF#24) ∧ s.rw.cfgTheta ≠ 0 ∧
      cfgValid s.params s.rw = true ∧ cellInRange s.rw = true :=
  ⟨fun x y h => by rw [show pixWord (image 5 11 white oneCell) x y = _ from pixWord_image_5_11 0x00FFFFFF x y h]; decide,
    by decide, by decide, by decide⟩
theorem witness_AllBlackImageGivesFullGlyph :
    let s := image 5 11 black oneCell
    (∀ x y : Nat, inImage s x y → (pixWord s x y).extractLsb' 0 24 = 0#24) ∧
      s.rw.cfgTheta.toNat ≤ 2 ^ s.params.ft ∧ (sampleDot s 0 0).degen = false ∧
      cfgValid s.params s.rw = true ∧ cellInRange s.rw = true ∧
      (cellDots s s.rw.row.toNat s.rw.col.toNat).degen = false :=
  ⟨fun x y h => by rw [show pixWord (image 5 11 black oneCell) x y = _ from pixWord_image_5_11 0 x y h]; decide,
    by decide, by decide +kernel, by decide, by decide, by decide +kernel⟩
theorem witness_RaisingThetaTurnsNoDotOn :
    (s4 0x7FFF).rw.cfgTheta.toNat ≤ (0x8000 : Word).toNat ∧
    (sampleDot { s4 0x7FFF with rw := { (s4 0x7FFF).rw with cfgTheta := 0x8000 } } 1 1).on = true := by
  decide +kernel
/-- The rim of S4 turned black. -/
theorem witness_EdgeWeightZeroIgnoresTheRim :
    let s := s4 0x8000
    let pix := (image 4 4 (fun x y => if (x = 1 ∨ x = 2) ∧ y = 2 then 0x00FFFFFF else 0) oneCell).pix
    s.rw.cfgEdge = 0 ∧ pix ≠ s.pix ∧
      ∀ dx ∈ ([0, 1] : List Nat), ∀ dy ∈ ([0, 1] : List Nat), inImage s ((1 : Nat) + dx) ((1 : Nat) + dy) →
        (pixWord { s with pix := pix } (1 + dx) (1 + dy)).extractLsb' 0 24 =
          (pixWord s (1 + dx) (1 + dy)).extractLsb' 0 24 := by
  decide +kernel
theorem witness_AlphaBitsAreIgnored :
    let s := { oneCell with pix := [((0, 0), 0x00123456)] }
    ∀ x y : Nat, (pixWord { s with pix := [((0, 0), 0xFF123456)] } x y).extractLsb' 0 24 =
      (pixWord s x y).extractLsb' 0 24 := by
  intro s x y
  by_cases h : (x, y) = (0, 0)
  · cases h; decide
  · simp [pixWord, sparseGet, h, s]

theorem witness_CellLeavesMaskAndGlyph :
    cfgValid f5.params f5.rw = true ∧ (at_ 1 1 f5).rw.row.toNat < f5.rw.cfgH.toNat ∧
      (at_ 1 1 f5).rw.col.toNat < f5.rw.cfgW.toNat := by decide +kernel
theorem witness_CellOutsideTheGridEndsRangeerr :
    cfgValid f5.params f5.rw = true ∧ f5.rw.cfgH.toNat ≤ (at_ 2 0 f5).rw.row.toNat ∧
      f5.rw.cfgW.toNat ≤ (at_ 0 2 f5).rw.col.toNat ∧
    (cfgValid oneCell.params oneCell.rw = true ∧ oneCell.rw.cfgW = 1 ∧ oneCell.rw.cfgH = 1 ∧
      (at_ 0 1 oneCell).rw.col = 1) := by decide +kernel
/-- The pixel (6, 0) is just right of the rectangle of cell (0, 0). -/
theorem witness_CellReadsOnlyItsRectangle :
    let s := image 7 11 black oneCell
    let pix := sparseSet rasterLt (6, 0) 0x00FFFFFF s.pix
    pix ≠ s.pix ∧ ∀ x y : Nat, inImage s x y →
      s.rw.col.toNat * (6 + 3 * s.rw.cfgT.toNat) ≤ x + 1 →
      x ≤ s.rw.col.toNat * (6 + 3 * s.rw.cfgT.toNat) + 5 →
      s.rw.row.toNat * (12 + 3 * s.rw.cfgL.toNat) ≤ y + 1 →
      y ≤ s.rw.row.toNat * (12 + 3 * s.rw.cfgL.toNat) + 11 →
        pixWord { s with pix := pix } x y = pixWord s x y := by
  refine ⟨by decide +kernel, fun x y _ _ hx _ _ => ?_⟩
  have h : (x, y) ≠ (6, 0) := by
    rintro h
    cases h
    revert hx
    decide +kernel
  simp only [pixWord, sparseGet_sparseSet_of_ne rasterLt h]
theorem witness_ScaledSizeRegistersRead :
    let s := grid 65535 65535 255 255 oneCell
    scaledW s.params s.rw < 2 ^ 32 ∧ scaledH s.params s.rw < 2 ^ 32 ∧ geomValid s.params s.rw = true ∧
      geomValid s.params (grid 65536 1 0 0 oneCell).rw = false := by decide
/-- Both corners of the grid. -/
theorem witness_NoDotIsDegenerateOnTheScaledBuffer :
    cfgValid f5.params f5.rw = true ∧ f5.rw.imgW.toNat = scaledW f5.params f5.rw ∧
      f5.rw.imgH.toNat = scaledH f5.params f5.rw ∧ 0 < f5.rw.cfgH.toNat ∧ 0 < f5.rw.cfgW.toNat ∧
      1 < f5.rw.cfgH.toNat ∧ 1 < f5.rw.cfgW.toNat := by decide +kernel
theorem witness_DefaultWidthsHoldEveryIntermediate :
    let s := grid 65535 65535 255 255 (weights 0x10000 0xFFFF oneCell)
    s.params = Config.defaults ∧ cfgValid s.params s.rw = true ∧ 65534 < s.rw.cfgH.toNat ∧
      65534 < s.rw.cfgW.toNat := by decide
theorem witness_FrameLeavesLengthAndLastCell :
    (f5.params.cw ≤ 16 ∧ cfgValid f5.params f5.rw = true ∧ f5.params.frameDimcheck = true ∧
      f5.rw.imgW.toNat = scaledW f5.params f5.rw ∧ f5.rw.imgH.toNat = scaledH f5.params f5.rw) ∧
    (f7.params.cw ≤ 16 ∧ cfgValid f7.params f7.rw = true ∧ f7.params.frameDimcheck = false) := by decide +kernel
/-- A completed `FRAME`: for the grid's layout, the terminators, `OUTLEN` and OUT. -/
theorem witness_FrameLaysOutTheGrid :
    f5.params.cw ≤ 16 ∧ ∃ t, exec .frame f5 = .next t ∧ (statusLast t.status == 0) = true :=
  ⟨by decide, exists_of_nextIs (by decide +kernel)⟩
theorem witness_FrameWritesExactlyBelowOutlen :
    (∃ t, exec .frame f7 = .next t ∧ (statusLast t.status == 0) = true) ∧
    ∃ t, exec .frame (p4 0xB08) = .next t ∧ (statusLast t.status != 0) = true :=
  ⟨exists_of_nextIs (by decide +kernel), exists_of_nextIs (by decide +kernel)⟩
theorem witness_FrameOutputHasHTerminators :
    f7.params.cw ≤ 16 ∧ ∃ t, exec .frame f7 = .next t ∧ (statusLast t.status == 0) = true :=
  ⟨by decide, exists_of_nextIs (by decide +kernel)⟩
theorem witness_FrameUnitIsWhatCellLeaves :
    (∃ t, exec .frame f5 = .next t ∧ (statusLast t.status == 0) = true) ∧
      (1 : Word).toNat < f5.rw.cfgH.toNat ∧ (1 : Word).toNat < f5.rw.cfgW.toNat :=
  ⟨exists_of_nextIs (by decide +kernel), by decide +kernel⟩
theorem witness_CheckedFrameMeetsNoDegenerateDot :
    f5.params.frameDimcheck = true ∧ cfgValid f5.params f5.rw = true ∧
      f5.rw.imgW.toNat = scaledW f5.params f5.rw ∧ f5.rw.imgH.toNat = scaledH f5.params f5.rw := by decide +kernel
theorem witness_FrameOnAnotherSizeEndsDimerr :
    let s := p4 0
    s.params.frameDimcheck = true ∧ cfgValid s.params s.rw = true ∧ s.rw.imgW.toNat ≠ scaledW s.params s.rw ∧
      s.params = Config.defaults ∧ s.rw.cfgW = 1 ∧ s.rw.cfgH = 1 ∧ s.rw.imgW = 4 := by decide +kernel
theorem witness_InvalidConfigurationEndsCfgerr :
    cfgValid Config.defaults (grid 65536 1 0 0 oneCell).rw = false ∧
      cfgValid Config.defaults (weights 0x10001 0 oneCell).rw = false ∧
      Instr.dotbit 7 ∉ [Instr.sample, Instr.cell, Instr.frame] := by decide
theorem witness_EveryCommandRaisesOrCompletes :
    decode 0x10FF#32 = .ok (.tostd 0xFF) ∧ Instr.tostd 0xFF ∉ [Instr.sample, Instr.cell, Instr.frame] := by decide
theorem witness_RaisingCommandWritesStatusOnly :
    ∃ t, issue 0x7000 (p4 0xB08) = .next t ∧ (statusLast t.status != 0) = true :=
  exists_of_nextIs (by decide +kernel)
theorem witness_NoCommandReadsStatus : ∃ t, issue 0x5000 s14 = .next t ∧ (t.status == 0x1010) = true :=
  exists_of_nextIs (by decide +kernel)
theorem witness_OnlyACompletedFrameWritesOutlen :
    decode 0x7000#32 = .ok .frame ∧ f5.params.cw ≤ 16 ∧
      ∃ t, issue 0x7000 f5 = .next t ∧ (t.outlen != f5.outlen && statusLast t.status == 0) = true :=
  ⟨by decide, by decide, exists_of_nextIs (by decide +kernel)⟩
theorem witness_ResIsTheGlyphOfMask :
    (∃ t, exec (.glyph 0x01) State.reset = .next t ∧ (statusLast t.status == 0) = true) ∧
    (∃ t, exec .cell f5 = .next t ∧ (statusLast t.status == 0) = true) ∧
    (∃ t, exec .sample s14 = .next t ∧ (statusLast t.status == 0) = true) :=
  ⟨exists_of_nextIs (by decide), exists_of_nextIs (by decide +kernel), exists_of_nextIs (by decide +kernel)⟩
theorem witness_StepRunsTheDecodedCommand :
    (pending (.regWrite 0 0x6000) f5).host = .regWrite 0 0x6000 :: [] ∧ decode 0x6000#32 = .ok .cell ∧
      decode 0x4008#32 = .illegal .dotbitImmHigh := by decide
theorem witness_RegisterReadReturnsTheMap :
    (pending (.regRead 0x12) f5).host = .regRead 0x12 :: [] ∧ (pending (.regRead 0xFF) f5).host = [.regRead 0xFF] :=
  ⟨rfl, rfl⟩
/-- `CMD`, the first and last RW index, RO and reserved indexes, and the rule's example. -/
theorem witness_RegisterWriteStoresOneRegister :
    (pending (.regWrite 0x02 7) f5).host = [.regWrite 0x02 7] ∧
    (2 ≤ (0x02 : BitVec 8).toNat ∧ (0x0D : BitVec 8).toNat ≤ 0x0D) ∧
    ((0x01 : BitVec 8).toNat < 2 ∧ (0x01 : BitVec 8).toNat ≠ 0 ∧ 0x0D < (0x0E : BitVec 8).toNat) ∧
    f5.params.ft = 16 := by decide
theorem witness_OutReadReturnsTheUnit :
    (0 < 2 ^ 32 - 1 ∧ 2 ^ 32 - 2 < 2 ^ 32 - 1 ∧ 2 ^ 32 - 1 ≤ 2 ^ 32 - 1) ∧
    (pending (.outRead 3) { oneCell with out := [(3, 0x000A)] }).host = [.outRead 3] ∧
    outAt (pending (.outRead 3) { oneCell with out := [(3, 0x000A)] }) 3 = some 0x000A := by decide
theorem witness_DefinedPixelReadsBack :
    (pending (.pixWrite 0 0 1) f7).host = [.pixWrite 0 0 1] ∧ ((1, 0) : Nat × Nat) ≠ (0, 0) := by decide
theorem witness_OnlyTheHostChangesTheConfiguration :
    (∃ t, step (pending (.regWrite 2 7) oneCell) = .next t ∧ (t.rw != oneCell.rw) = true) ∧
    ∃ t, step (pending (.pixWrite 0 0 1) oneCell) = .next t ∧ (t.pix != oneCell.pix) = true :=
  ⟨exists_of_nextIs (by decide), exists_of_nextIs (by decide)⟩
theorem witness_ResetClearsEveryRegister :
    (pending .reset (p4 0xB08)).host = [.reset] ∧ (p4 0xB08).status.getLsbD 8 = true ∧
      ∃ t, step (pending .reset (p4 0xB08)) = .next t ∧ (t.status.getLsbD 8 == false) = true :=
  ⟨rfl, by decide +kernel, exists_of_nextIs (by decide +kernel)⟩
theorem witness_ResetErasesTheCommandBefore : ∃ t, issue 0x7000 f7 = .next t ∧ (t.outlen == 4) = true :=
  exists_of_nextIs (by decide +kernel)
theorem witness_StickyBitsAreMonotone :
    (pending (.regWrite 0 0) (p4 0xB08)).host.head? ≠ some .reset ∧ (p4 0xB08).status.getLsbD 11 = true ∧
      ∃ t, step (pending (.regWrite 0 0) (p4 0xB08)) = .next t ∧ (statusLast t.status != 0) = true :=
  ⟨by decide +kernel, by decide +kernel, exists_of_nextIs (by decide +kernel)⟩
/-- A state after `ILLCMD`, with a command pending, meets the invariant and steps (also the premise of
`ReservedIndexesReadZero`). -/
theorem witness_StepKeepsTheInvariant :
    let s := { pending (.regWrite 0 0x3001) State.reset with status := 0x00000102 }
    s.Inv ∧ ∃ t, step s = .next t ∧ (t.status == 0x100) = true :=
  ⟨{ params := by decide
     reserved := by decide
     last := by decide
     lastSticky := fun e => by cases e <;> decide
     lastDegen := by decide
     degenSticky := by decide
     res := .inl (by decide)
     memory := ⟨List.Pairwise.nil, List.Pairwise.nil⟩
     outIndex := fun k h => by cases h
     outChars := fun k u h => by cases h
     outFilled := fun k h => by cases h }, exists_of_nextIs (by decide)⟩
theorem witness_ReservedIndexesReadZero : 0x13 ≤ (0x13 : BitVec 8).toNat ∧ 0x13 ≤ (0xFF : BitVec 8).toNat := by
  decide

end Sys2Proof.Tests
end

section
/-! SUPPORT. What a valid configuration bounds (10_state.md R43), the scaled size as the last cell's origin
and extent, and the bounds of 00_scope.md R12. -/

namespace Sys2Proof.Machine

/-! ### Valid configurations -/

theorem geomValid_iff (p : Config.Params) (r : RwRegs) :
    geomValid p r = true ↔ (1 ≤ r.cfgW.toNat ∧ r.cfgW.toNat ≤ 2 ^ p.cw - 1) ∧
      (1 ≤ r.cfgH.toNat ∧ r.cfgH.toNat ≤ 2 ^ p.cw - 1) ∧
      r.cfgT.toNat ≤ 2 ^ p.sw - 1 ∧ r.cfgL.toNat ≤ 2 ^ p.sw - 1 := by
  simp only [geomValid, Bool.and_eq_true, decide_eq_true_eq, and_assoc]

theorem cfgValid_iff (p : Config.Params) (r : RwRegs) :
    cfgValid p r = true ↔ geomValid p r = true ∧ r.cfgTheta.toNat ≤ 2 ^ p.ft ∧
      r.cfgEdge.toNat ≤ 2 ^ p.ew - 1 := by
  simp only [cfgValid, Bool.and_eq_true, decide_eq_true_eq, and_assoc]

/-- The legal ranges at the defaults (00_scope.md R9). -/
theorem cfgValid_defaults_le {r : RwRegs} (h : cfgValid Config.defaults r = true) :
    r.cfgW.toNat ≤ 65535 ∧ r.cfgH.toNat ≤ 65535 ∧ r.cfgT.toNat ≤ 255 ∧ r.cfgL.toNat ≤ 255 ∧
      r.cfgTheta.toNat ≤ 65536 ∧ r.cfgEdge.toNat ≤ 65535 := by
  obtain ⟨hg, htheta, he⟩ := (cfgValid_iff _ _).1 h
  obtain ⟨⟨-, hW⟩, ⟨-, hH⟩, hT, hL⟩ := (geomValid_iff _ _).1 hg
  exact ⟨hW, hH, hT, hL, htheta, he⟩

/-! ### Geometry -/

/-- The scaled width ends 5 past the last column's origin (10_state.md R39, 41_dot_sampler.md R174). -/
theorem scaledW_eq_cellX0 {p : Config.Params} {r : RwRegs} (h : geomValid p r = true) :
    scaledW p r = cellX0 r (r.cfgW.toNat - 1) + 5 := by
  obtain ⟨⟨hw, -⟩, -⟩ := (geomValid_iff p r).1 h
  obtain ⟨n, hn⟩ := Nat.exists_eq_add_of_le' hw
  rw [scaledW, if_pos h, cellX0, hn, Nat.add_sub_cancel, Nat.sub_eq_iff_eq_add (by omega)]
  ring

/-- The scaled height ends 11 past the last row's origin (10_state.md R39, 41_dot_sampler.md R174). -/
theorem scaledH_eq_cellY0 {p : Config.Params} {r : RwRegs} (h : geomValid p r = true) :
    scaledH p r = cellY0 r (r.cfgH.toNat - 1) + 11 := by
  obtain ⟨-, ⟨hh, -⟩, -⟩ := (geomValid_iff p r).1 h
  obtain ⟨n, hn⟩ := Nat.exists_eq_add_of_le' hh
  rw [scaledH, if_pos h, cellY0, hn, Nat.add_sub_cancel, Nat.sub_eq_iff_eq_add (by omega)]
  ring

theorem cellX0_le {r : RwRegs} {c n t : Nat} (hc : c ≤ n) (ht : r.cfgT.toNat ≤ t) :
    cellX0 r c ≤ n * (6 + 3 * t) :=
  Nat.mul_le_mul hc (by omega)

theorem cellY0_le {r : RwRegs} {row n l : Nat} (hr : row ≤ n) (hl : r.cfgL.toNat ≤ l) :
    cellY0 r row ≤ n * (12 + 3 * l) :=
  Nat.mul_le_mul hr (by omega)

/-! ### The accumulators and the decision -/

/-- `Sc ≤ 4*K` and `Sr ≤ 12*K` (00_scope.md R12). -/
theorem accumulate_sums_le (s : State) (xs ys : Nat) :
    (accumulate s xs ys).sc ≤ darknessMax * 4 ∧ (accumulate s xs ys).sr ≤ darknessMax * 12 := by
  obtain ⟨hsc, hsr⟩ := accumulate_sums s xs ys
  obtain ⟨hnc, hnr⟩ := accumulate_counts s xs ys
  exact ⟨hsc.trans (Nat.mul_le_mul_left _ hnc), hsr.trans (Nat.mul_le_mul_left _ hnr)⟩

theorem den_le (s : State) (xs ys fe : Nat) {edge e : Nat} (he : edge ≤ e) :
    den fe edge (accumulate s xs ys) ≤ 2 ^ fe * 4 + e * 12 := by
  obtain ⟨hnc, hnr⟩ := accumulate_counts s xs ys
  exact Nat.add_le_add (Nat.mul_le_mul_left _ hnc) (Nat.mul_le_mul he hnr)

/-! ### The bounds at the default widths -/

/-- Settles O33: origins and scaled sizes are monotone in the cell's place and the spacing, a dot has at
most 4 core and 12 rim pixels, and `NUM ≤ K * DEN`, so every bound follows from the one on `DEN`. -/
theorem defaultWidthsHoldEveryIntermediate : Obligations.DefaultWidthsHoldEveryIntermediate := by
  intro s r c xs ys hp hv hr hc a e
  have hg : geomValid s.params s.rw = true := ((cfgValid_iff _ _).1 hv).1
  rw [hp] at hv
  obtain ⟨hW, hH, hT, hL, htheta, he⟩ := cfgValid_defaults_le hv
  have hx : ∀ c < s.rw.cfgW.toNat, cellX0 s.rw c ≤ 50526714 := fun c hc =>
    cellX0_le (n := 65534) (by omega) hT
  have hy : ∀ r < s.rw.cfgH.toNat, cellY0 s.rw r ≤ 50919918 := fun r hr =>
    cellY0_le (n := 65534) (by omega) hL
  have hden : den 8 e a ≤ 787444 := den_le s xs ys 8 he
  have hnum : num 8 e a ≤ 2550000 * den 8 e a := num_le s xs ys 8 e
  obtain ⟨hsc, hsr⟩ := accumulate_sums_le s xs ys
  refine ⟨?scaledW, ?scaledH, hx c hc, hy r hr, ?outlen, darkness_le, hsc, hsr, by omega, hden,
    by omega, ?right⟩
  case scaledW =>
    rw [scaledW_eq_cellX0 hg]
    exact Nat.add_le_add_right (hx _ (by omega)) 5
  case scaledH =>
    rw [scaledH_eq_cellY0 hg]
    exact Nat.add_le_add_right (hy _ (by omega)) 11
  case outlen => exact Nat.mul_le_mul (Nat.add_le_add_right hW 2) hH
  case right =>
    calc s.rw.cfgTheta.toNat * 2550000 * den 8 e a
        ≤ 65536 * 2550000 * 787444 := Nat.mul_le_mul (Nat.mul_le_mul_right _ htheta) hden
      _ < 2 ^ 57 := by norm_num

end Sys2Proof.Machine
end

section
/-! SUPPORT. What a step keeps: the inversion of a command that completed, of a transaction and of a step,
the invariant of every state, `STATUS` between resets, and the register map (10_state.md sections 2 to 7). -/

namespace Sys2Proof.Machine

/-! ### `LAST` tells a completion from an error -/

@[simp] theorem statusLast_statusComplete (g : Bool) (w : Word) : statusLast (statusComplete g w) = 0 :=
  (completed_statusComplete g w).1

@[simp] theorem statusLastDegen_statusComplete (g : Bool) (w : Word) :
    statusLastDegen (statusComplete g w) = g :=
  (completed_statusComplete g w).2.1

@[simp] theorem statusLast_statusRaise (e : ErrCode) (w : Word) :
    statusLast (statusRaise e w) = BitVec.ofNat 3 e.code :=
  (raised_statusRaise e w).1

@[simp] theorem statusLastDegen_statusRaise (e : ErrCode) (w : Word) :
    statusLastDegen (statusRaise e w) = false :=
  (raised_statusRaise e w).2.1

@[simp] theorem statusLast_zero : statusLast 0#32 = 0 := by decide

@[simp] theorem statusLastDegen_zero : statusLastDegen 0#32 = false := by decide

/-- No error has the code 0 (60_exceptions.md R221). -/
theorem errCode_ne_zero (e : ErrCode) : BitVec.ofNat 3 e.code ≠ 0 := by
  cases e <;> decide

theorem errCode_le (e : ErrCode) : (BitVec.ofNat 3 e.code).toNat ≤ 4 := by
  cases e <;> decide

/-- The code names the error (60_exceptions.md R221). -/
theorem errCode_injective {e e' : ErrCode} (h : BitVec.ofNat 3 e.code = BitVec.ofNat 3 e'.code) : e = e' := by
  cases e <;> cases e' <;> simp [ErrCode.code] at h ⊢

/-- An outcome that raises leaves `LAST` ≠ 0, so one that leaves it 0 did not raise. -/
theorem ne_raise_of_last_eq_zero {o : Host.Outcome State Fault Refusal} {t : State} (h : o = .next t)
    (hl : statusLast t.status = 0) (e : ErrCode) (s : State) : o ≠ .next (raise e s) := by
  rintro ho
  obtain rfl : t = raise e s := by simpa using h.symm.trans ho
  exact errCode_ne_zero e (by simpa using hl)

theorem endsIn_raise (e : ErrCode) (s : State) : EndsIn e s (.next (raise e s)) :=
  ⟨raise e s, rfl, raised_statusRaise e s.status, rfl⟩

/-! ### A sampler command that completed -/

theorem exec_sample_completed {s t : State} (h : exec .sample s = .next t) (hl : statusLast t.status = 0) :
    ∃ g b, t = advanceFresh (complete g (setRes (bit16 b) s)) := by
  cases hv : cfgValid s.params s.rw with
  | false => exact absurd (exec_sample_invalid hv) (ne_raise_of_last_eq_zero h hl _ s)
  | true => exact ⟨_, _, Host.Outcome.next.inj (h.symm.trans (exec_sample_valid hv))⟩

theorem exec_cell_completed {s t : State} (h : exec .cell s = .next t) (hl : statusLast t.status = 0) :
    ∃ g m, t = advanceFresh (complete g (setRes (gromRead m).cp (setMask m s))) := by
  cases hv : cfgValid s.params s.rw with
  | false => exact absurd (exec_cell_invalid hv) (ne_raise_of_last_eq_zero h hl _ s)
  | true =>
    cases hr : cellInRange s.rw with
    | false => exact absurd (exec_cell_outside hv hr) (ne_raise_of_last_eq_zero h hl _ s)
    | true => exact ⟨_, _, Host.Outcome.next.inj (h.symm.trans (exec_cell_valid hv hr))⟩

theorem exec_frame_completed {s t : State} (h : exec .frame s = .next t) (hl : statusLast t.status = 0) :
    cfgValid s.params s.rw = true ∧
      t = advanceFresh (complete (frameRows s).degen (frameStore (frameRows s) s)) := by
  cases hv : cfgValid s.params s.rw with
  | false => exact absurd (exec_frame_invalid hv) (ne_raise_of_last_eq_zero h hl _ s)
  | true =>
    cases hd : frameDimsOk s.params s.rw with
    | false => exact absurd (exec_frame_dims hv hd) (ne_raise_of_last_eq_zero h hl _ s)
    | true => exact ⟨rfl, Host.Outcome.next.inj (h.symm.trans (exec_frame_valid hv hd))⟩

/-! ### What `FRAME` leaves in a valid configuration -/

/-- OUT has room for the largest grid: `(2^16 - 1 + 2) * (2^16 - 1) = 2^32 - 1` (10_state.md R41,
20_memory.md R70). -/
theorem frame_units_le {p : Config.Params} {r : RwRegs} (hv : cfgValid p r = true) (hcw : p.cw ≤ 16) :
    (r.cfgW.toNat + 2) * r.cfgH.toNat ≤ outLocations := by
  obtain ⟨⟨-, hW⟩, ⟨-, hH⟩, -⟩ := (geomValid_iff p r).1 ((cfgValid_iff p r).1 hv).1
  have hpow : 2 ^ p.cw ≤ 2 ^ 16 := Nat.pow_le_pow_right (by omega) hcw
  calc (r.cfgW.toNat + 2) * r.cfgH.toNat ≤ 65537 * 65535 := Nat.mul_le_mul (by omega) (by omega)
    _ = outLocations := rfl

/-- `OUTLEN` holds the number of units without wrapping (10_state.md R41). -/
theorem frameRows_k_toNat {s : State} (hv : cfgValid s.params s.rw = true) (hcw : s.params.cw ≤ 16) :
    (BitVec.ofNat 32 (frameRows s).k).toNat = (s.rw.cfgW.toNat + 2) * s.rw.cfgH.toNat := by
  have hle := frame_units_le hv hcw
  rw [frameRows_k, BitVec.toNat_ofNat, Nat.mod_eq_of_lt (by simp only [outLocations] at hle; omega)]

/-- The last cell's glyph is the glyph of the last cell's mask (42_frame.md R204). -/
theorem frameRows_res {s : State} (hv : cfgValid s.params s.rw = true) :
    (frameRows s).res = (gromRead (frameRows s).mask).cp := by
  obtain ⟨⟨hW, -⟩, ⟨hH, -⟩, -⟩ := (geomValid_iff _ _).1 ((cfgValid_iff _ _).1 hv).1
  obtain ⟨hmask, hres⟩ := frameRows_last s hW hH
  rw [hres, hmask, cellGlyph]

/-! ### Any transaction, any step -/

/-- Everything a transaction that answers a next state can do. -/
theorem transact_cases {op : HostOp} {s t : State} (h : transact op s = .next t) :
    (∃ a, op = .regRead a ∧ t = hostRegRead a s) ∨
      (∃ d, op = .regWrite 0 d ∧ issue d s = .next t) ∨
      (∃ a d, op = .regWrite a d ∧ a ≠ 0 ∧ t = writeIndex a d s) ∨
      (∃ k u f, op = .outRead k ∧ t = { s with replies := .out u :: s.replies, fresh := f }) ∨
      (∃ x y p, op = .pixWrite x y p ∧ t = pixWrite x y p s) ∨
      (op = .pixRelease ∧ t = { s with pix := [] }) ∨
      (op = .reset ∧ t = hardReset s) := by
  cases op with
  | regRead a => exact .inl ⟨a, rfl, (Host.Outcome.next.inj h).symm⟩
  | regWrite a d =>
    by_cases ha : a = 0
    · subst ha
      exact .inr (.inl ⟨d, rfl, (regWrite_cmd d s).symm.trans h⟩)
    · exact .inr (.inr (.inl ⟨a, d, rfl, ha, Host.Outcome.next.inj (h.symm.trans (regWrite_other ha d s))⟩))
  | outRead k =>
    rcases outRead_cases k s with ⟨-, u, f, hk⟩ | ⟨-, hk⟩
    · exact .inr (.inr (.inr (.inl ⟨k, u, f, rfl, Host.Outcome.next.inj (h.symm.trans hk)⟩)))
    · exact absurd (h.symm.trans hk) (by simp)
  | pixWrite x y p =>
    exact .inr (.inr (.inr (.inr (.inl ⟨x, y, p, rfl, (Host.Outcome.next.inj h).symm⟩))))
  | pixRelease => exact .inr (.inr (.inr (.inr (.inr (.inl ⟨rfl, (Host.Outcome.next.inj h).symm⟩)))))
  | reset => exact .inr (.inr (.inr (.inr (.inr (.inr ⟨rfl, (Host.Outcome.next.inj h).symm⟩)))))

/-- A step is idle or makes the first pending transaction (log 20, 10_state.md R40). -/
theorem step_cases {s t : State} (h : step s = .next t) :
    t = s ∨ ∃ op rest, s.host = op :: rest ∧ transact op { s with host := rest } = .next t := by
  cases hs : s.host with
  | nil => exact .inl (Host.Outcome.next.inj (h.symm.trans (hostStep_nil s hs)))
  | cons op rest => exact .inr ⟨op, rest, rfl, (hostStep_cons s op rest hs).symm.trans h⟩

/-! ### The invariant, operation by operation -/

theorem zext16_toNat_le (m : DotMask) : (zext16 m).toNat ≤ 0xFF := by
  have h := m.isLt
  rw [zext16, BitVec.toNat_setWidth, Nat.mod_eq_of_lt (by omega)]
  omega

theorem bit16_toNat_le (b : Bool) : (bit16 b).toNat ≤ 0xFF := by
  cases b <;> decide

theorem inv_raise {s : State} (h : s.Inv) (e : ErrCode) : (raise e s).Inv where
  __ := h
  reserved := raised_reserved (raised_statusRaise e s.status) h.reserved
  last := by simpa using errCode_le e
  lastSticky e' he := by
    obtain rfl : e = e' := errCode_injective (by simpa using he)
    exact (raised_statusRaise e s.status).2.2.1
  lastDegen _ := statusLastDegen_statusRaise e s.status
  degenSticky hd := by simp at hd

theorem inv_complete {s : State} (h : s.Inv) (g : Bool) : (complete g s).Inv where
  __ := h
  reserved := completed_reserved (completed_statusComplete g s.status) h.reserved
  last := by simp
  lastSticky e he := absurd he.symm (by simpa using errCode_ne_zero e)
  lastDegen hl := by simp at hl
  degenSticky hd := by
    obtain ⟨-, hdegen, hsticky, -⟩ := completed_statusComplete g s.status
    rw [complete_status] at hd ⊢
    rw [hsticky, ← hdegen, hd, Bool.or_true]

theorem inv_setRes {s : State} (h : s.Inv) {v : BitVec 16} (hv : v.toNat ≤ 0xFF ∨ isGlyph v) :
    (setRes v s).Inv := { h with res := hv }

theorem inv_setMask {s : State} (h : s.Inv) (m : DotMask) : (setMask m s).Inv := { h with }

theorem inv_advanceFresh {s : State} (h : s.Inv) : (advanceFresh s).Inv := { h with }

/-- What OUT holds after `FRAME`: the grid, and above it what it held before (20_memory.md R73). -/
theorem outAt_frameStore (s : State) (k : Nat) :
    outAt (frameStore (frameRows s) s) k =
      if k < (s.rw.cfgW.toNat + 2) * s.rw.cfgH.toNat then some (gridUnit s s.rw.cfgW.toNat k)
      else outAt s k :=
  frameRows_out s k

theorem inv_frameStore {s : State} (h : s.Inv) (hv : cfgValid s.params s.rw = true) (hcw : s.params.cw ≤ 16) :
    (frameStore (frameRows s) s).Inv where
  __ := h
  res := by
    rw [frameStore_res, frameRows_res hv]
    exact .inr (gromRead_isGlyph _)
  memory := ⟨frameRows_sorted s h.memory.1, h.memory.2⟩
  outIndex k hk := by
    rw [outAt_frameStore] at hk
    split at hk
    · next hlt => exact hlt.trans_le (frame_units_le hv hcw)
    · exact h.outIndex k hk
  outChars k u hu := by
    rw [outAt_frameStore] at hu
    split at hu
    · obtain rfl := Option.some.inj hu
      exact gridUnit_isOutChar s _ k
    · exact h.outChars k u hu
  outFilled k hk := by
    rw [frameStore_outlen, frameRows_k_toNat hv hcw] at hk
    rw [outAt_frameStore, if_pos hk]
    rfl

/-- Reset asks only for legal parameters and a canonical PIX, which it leaves alone. -/
theorem inv_hardReset {s : State} (hp : s.params.legal = true) (hpix : sparseSorted rasterLt s.pix) :
    (hardReset s).Inv where
  params := hp
  reserved := by simp
  last := by simp
  lastSticky e he := absurd he.symm (by simpa using errCode_ne_zero e)
  lastDegen hl := by simp at hl
  degenSticky hd := by simp at hd
  res := .inl (Nat.zero_le _)
  memory := ⟨.nil, hpix⟩
  outIndex _ hk := by cases hk
  outChars _ _ hu := by cases hu
  outFilled k hk := absurd hk (Nat.not_lt_zero k)

theorem legal_cw_le {p : Config.Params} (h : p.legal = true) : p.cw ≤ 16 := by
  simp only [Config.Params.legal, Bool.and_eq_true, decide_eq_true_eq] at h
  omega

/-- Every command keeps the invariant, whether it raises or completes. -/
theorem inv_exec {s : State} (h : s.Inv) (i : Instr) : ∃ t, exec i s = .next t ∧ t.Inv := by
  cases i with
  | tostd m => exact ⟨_, exec_tostd m s, inv_complete (inv_setRes h (.inl (zext16_toNat_le _))) _⟩
  | toint m => exact ⟨_, exec_toint m s, inv_complete (inv_setRes h (.inl (zext16_toNat_le _))) _⟩
  | glyph m =>
    exact ⟨_, exec_glyph m s, inv_complete (inv_setMask (inv_setRes h (.inr (gromRead_isGlyph m))) m) _⟩
  | dotbit p => exact ⟨_, exec_dotbit p s, inv_complete (inv_setRes h (.inl (zext16_toNat_le _))) _⟩
  | sample =>
    cases hv : cfgValid s.params s.rw with
    | false => exact ⟨_, exec_sample_invalid hv, inv_raise h _⟩
    | true =>
      exact ⟨_, exec_sample_valid hv,
        inv_advanceFresh (inv_complete (inv_setRes h (.inl (bit16_toNat_le _))) _)⟩
  | cell =>
    cases hv : cfgValid s.params s.rw with
    | false => exact ⟨_, exec_cell_invalid hv, inv_raise h _⟩
    | true =>
      cases hr : cellInRange s.rw with
      | false => exact ⟨_, exec_cell_outside hv hr, inv_raise h _⟩
      | true =>
        exact ⟨_, exec_cell_valid hv hr, inv_advanceFresh (inv_complete
          (inv_setRes (inv_setMask h _) (.inr (gromRead_isGlyph _))) _)⟩
  | frame =>
    cases hv : cfgValid s.params s.rw with
    | false => exact ⟨_, exec_frame_invalid hv, inv_raise h _⟩
    | true =>
      cases hd : frameDimsOk s.params s.rw with
      | false => exact ⟨_, exec_frame_dims hv hd, inv_raise h _⟩
      | true =>
        exact ⟨_, exec_frame_valid hv hd,
          inv_advanceFresh (inv_complete (inv_frameStore h hv (legal_cw_le h.params)) _)⟩

theorem inv_issue {s : State} (h : s.Inv) (d : Word) : ∃ t, issue d s = .next t ∧ t.Inv := by
  cases hd : decode d with
  | ok i => rw [issue_ok hd]; exact inv_exec h i
  | illegal w => exact ⟨_, issue_illegal hd s, inv_raise h _⟩

theorem inv_transact {op : HostOp} {s t : State} (h : s.Inv) (ht : transact op s = .next t) : t.Inv := by
  rcases transact_cases ht with ⟨a, -, rfl⟩ | ⟨d, -, hd⟩ | ⟨a, d, -, -, rfl⟩ | ⟨k, u, f, -, rfl⟩ |
    ⟨x, y, p, -, rfl⟩ | ⟨-, rfl⟩ | ⟨-, rfl⟩
  · exact { h with }
  · obtain ⟨t', ht', hinv⟩ := inv_issue h d
    obtain rfl := Host.Outcome.next.inj (hd.symm.trans ht')
    exact hinv
  · rw [writeIndex_eq]
    exact { h with }
  · exact { h with }
  · exact { h with memory := pixWrite_wf x y p h.memory }
  · exact { h with memory := ⟨h.memory.1, .nil⟩ }
  · exact inv_hardReset h.params h.memory.2

/-- Settles O58: a step is idle or one transaction, and each operation a transaction is made of keeps the
invariant. -/
theorem stepKeepsTheInvariant : Obligations.StepKeepsTheInvariant := by
  intro s t h hstep
  rcases step_cases hstep with rfl | ⟨op, rest, -, ht⟩
  · exact h
  · exact inv_transact (s := { s with host := rest }) { h with } ht

/-! ### `STATUS` between resets -/

theorem statusRaise_keeps_sticky (e : ErrCode) {w : Word} {b : Nat} (hb : 8 ≤ b) (h : w.getLsbD b = true) :
    (statusRaise e w).getLsbD b = true := by
  rw [statusRaise_getLsbD]
  split_ifs
  · rfl
  · omega
  · omega
  · exact h

theorem statusComplete_keeps_sticky (g : Bool) {w : Word} {b : Nat} (hb : 8 ≤ b) (h : w.getLsbD b = true) :
    (statusComplete g w).getLsbD b = true := by
  rw [statusComplete_getLsbD]
  split_ifs with h4 h12
  · omega
  · subst h12
    rw [h, Bool.true_or]
  · omega
  · exact h

/-- What any step does to `STATUS`: nothing, one error, one completion, or reset. -/
theorem step_status {s t : State} (h : step s = .next t) :
    t.status = s.status ∨ (∃ e, t.status = statusRaise e s.status) ∨
      (∃ g, t.status = statusComplete g s.status) ∨ (s.host.head? = some .reset ∧ t.status = 0) := by
  rcases step_cases h with rfl | ⟨op, rest, hs, ht⟩
  · exact .inl rfl
  rcases transact_cases ht with ⟨a, -, rfl⟩ | ⟨d, -, hd⟩ | ⟨a, d, -, -, rfl⟩ | ⟨k, u, f, -, rfl⟩ |
    ⟨x, y, p, -, rfl⟩ | ⟨-, rfl⟩ | ⟨rfl, rfl⟩
  · exact .inl rfl
  · rcases issue_cases d { s with host := rest } with ⟨e, he⟩ | ⟨g, _, _, _, _, _, hg⟩
    · obtain rfl := Host.Outcome.next.inj (hd.symm.trans he)
      exact .inr (.inl ⟨e, rfl⟩)
    · obtain rfl := Host.Outcome.next.inj (hd.symm.trans hg)
      exact .inr (.inr (.inl ⟨g, rfl⟩))
  · exact .inl (writeIndex_status a d _)
  · exact .inl rfl
  · exact .inl rfl
  · exact .inl rfl
  · exact .inr (.inr (.inr ⟨by rw [hs]; rfl, rfl⟩))

/-- Settles O57: the only step that clears a sticky bit is reset, and only a completion, which leaves `LAST`
0, sets `LASTDEGEN`. -/
theorem stickyBitsAreMonotone : Obligations.StickyBitsAreMonotone := by
  intro s t h
  rcases step_status h with hw | ⟨e, hw⟩ | ⟨g, hw⟩ | ⟨hr, hw⟩ <;> rw [hw]
  · exact ⟨fun _ _ _ _ hb => hb, id⟩
  · exact ⟨fun _ _ h8 _ hb => statusRaise_keeps_sticky e h8 hb, fun _ _ => statusLastDegen_statusRaise e _⟩
  · exact ⟨fun _ _ h8 _ hb => statusComplete_keeps_sticky g h8 hb,
      fun _ hl => absurd (statusLast_statusComplete g _) hl⟩
  · exact ⟨fun hne => absurd hr hne, fun _ hl => absurd statusLast_zero hl⟩

/-! ### Commands: the configuration check, `STATUS`, `OUTLEN` and `RES` -/

/-- A cell-encoder command completes in every state and writes `RES` and `MASK` at most
(40_cell_encoder.md R138). -/
theorem exec_cellEncoder {i : Instr} (hi : i ∉ [Instr.sample, Instr.cell, Instr.frame]) (s : State) :
    ∃ v m, exec i s = .next (complete false (setMask m (setRes v s))) := by
  cases i with
  | tostd m => exact ⟨zext16 (toStd m), s.mask, exec_tostd m s⟩
  | toint m => exact ⟨zext16 (toInt m), s.mask, exec_toint m s⟩
  | glyph m => exact ⟨_, m, exec_glyph m s⟩
  | dotbit p => exact ⟨zext16 (dotMask p), s.mask, exec_dotbit p s⟩
  | sample => simp at hi
  | cell => simp at hi
  | frame => simp at hi

/-- Settles O41: `CFGERR` is the first check of all three sampler commands. -/
theorem invalidConfigurationEndsCfgerr : Obligations.InvalidConfigurationEndsCfgerr := by
  intro s valid
  have hiff : cfgValid s.params s.rw = true ↔ valid := by
    simp only [cfgValid_iff, geomValid_iff, and_assoc, valid]
  refine ⟨hiff, fun hn i hi => ?_, fun i hi => ?_⟩
  · have hv : cfgValid s.params s.rw = false := Bool.eq_false_iff.2 (mt hiff.1 hn)
    simp only [List.mem_cons, List.not_mem_nil, or_false] at hi
    have hexec : exec i s = .next (raise .cfgErr s) := by
      rcases hi with rfl | rfl | rfl
      · exact exec_sample_invalid hv
      · exact exec_cell_invalid hv
      · exact exec_frame_invalid hv
    rw [hexec]
    exact endsIn_raise .cfgErr s
  · obtain ⟨v, m, h⟩ := exec_cellEncoder hi s
    exact ⟨_, h, completed_statusComplete false s.status⟩

theorem sampleDot_status (s : State) (w : Word) (xs ys : Nat) :
    sampleDot { s with status := w } xs ys = sampleDot s xs ys :=
  sampleDot_congr rfl rfl rfl (accumulate_congr rfl rfl fun _ _ _ => rfl)

theorem cellDots_status (s : State) (w : Word) (r c : Nat) :
    cellDots { s with status := w } r c = cellDots s r c :=
  cellDots_congr fun _ _ => sampleDot_status s w _ _

theorem frameRows_status (s : State) (w : Word) : frameRows { s with status := w } = frameRows s := rfl

/-- What a command does, at once for every `STATUS` word `w` it may find: the checks and the results do not
mention it. -/
theorem exec_any_status (i : Instr) (s : State) :
    (∃ e, ∀ w, exec i { s with status := w } = .next (raise e { s with status := w })) ∨
      ∃ (g : Bool) (u : State), ∀ w,
        exec i { s with status := w } = .next { u with status := statusComplete g w } := by
  cases i with
  | tostd m => exact .inr ⟨false, setRes (zext16 (toStd m)) s, fun _ => exec_tostd m _⟩
  | toint m => exact .inr ⟨false, setRes (zext16 (toInt m)) s, fun _ => exec_toint m _⟩
  | glyph m => exact .inr ⟨false, setMask m (setRes (gromRead m).cp s), fun _ => exec_glyph m _⟩
  | dotbit p => exact .inr ⟨false, setRes (zext16 (dotMask p)) s, fun _ => exec_dotbit p _⟩
  | sample =>
    cases hv : cfgValid s.params s.rw with
    | false => exact .inl ⟨.cfgErr, fun w => exec_sample_invalid (s := { s with status := w }) hv⟩
    | true =>
      let d := sampleDot s s.rw.xs.toNat s.rw.ys.toNat
      refine .inr ⟨d.degen, advanceFresh (setRes (bit16 d.on) s), fun w => ?_⟩
      rw [exec_sample_valid (s := { s with status := w }) hv, sampleDot_status]
      rfl
  | cell =>
    cases hv : cfgValid s.params s.rw with
    | false => exact .inl ⟨.cfgErr, fun w => exec_cell_invalid (s := { s with status := w }) hv⟩
    | true =>
      cases hr : cellInRange s.rw with
      | false => exact .inl ⟨.rangeErr, fun w => exec_cell_outside (s := { s with status := w }) hv hr⟩
      | true =>
        let c := cellDots s s.rw.row.toNat s.rw.col.toNat
        refine .inr ⟨c.degen, advanceFresh (setRes (gromRead c.mask).cp (setMask c.mask s)), fun w => ?_⟩
        rw [exec_cell_valid (s := { s with status := w }) hv hr, cellGlyph, cellDots_status]
        rfl
  | frame =>
    cases hv : cfgValid s.params s.rw with
    | false => exact .inl ⟨.cfgErr, fun w => exec_frame_invalid (s := { s with status := w }) hv⟩
    | true =>
      cases hd : frameDimsOk s.params s.rw with
      | false => exact .inl ⟨.dimErr, fun w => exec_frame_dims (s := { s with status := w }) hv hd⟩
      | true =>
        refine .inr ⟨(frameRows s).degen, advanceFresh (frameStore (frameRows s) s), fun w => ?_⟩
        rw [exec_frame_valid (s := { s with status := w }) hv hd, frameRows_status]
        rfl

theorem issue_any_status (d : Word) (s : State) :
    (∃ e, ∀ w, issue d { s with status := w } = .next (raise e { s with status := w })) ∨
      ∃ (g : Bool) (u : State), ∀ w,
        issue d { s with status := w } = .next { u with status := statusComplete g w } := by
  cases h : decode d with
  | ok i => simp only [issue_ok h]; exact exec_any_status i s
  | illegal why => exact .inl ⟨.illCmd, fun w => issue_illegal h _⟩

/-- Settles O45: the outcome is one function of `STATUS`, taken at the two words. -/
theorem noCommandReadsStatus : Obligations.NoCommandReadsStatus := by
  intro d s t w h
  rcases issue_any_status d s with ⟨e, he⟩ | ⟨g, u, hg⟩
  · obtain rfl := Host.Outcome.next.inj (h.symm.trans (he s.status))
    exact ⟨statusRaise e w, he w, by simp, by simp⟩
  · obtain rfl := Host.Outcome.next.inj (h.symm.trans (hg s.status))
    exact ⟨statusComplete g w, hg w, by simp, by simp⟩

/-- Only `FRAME` writes OUT and `OUTLEN` (10_state.md R41, 20_memory.md R72, R73). -/
theorem exec_out_of_ne_frame {i : Instr} (hi : i ≠ .frame) {s t : State} (h : exec i s = .next t) :
    t.outlen = s.outlen ∧ t.out = s.out := by
  by_cases henc : i ∉ [Instr.sample, Instr.cell, Instr.frame]
  · obtain ⟨v, m, henc⟩ := exec_cellEncoder henc s
    obtain rfl := Host.Outcome.next.inj (h.symm.trans henc)
    exact ⟨rfl, rfl⟩
  rcases exec_cases i s with ⟨e, he⟩ | ⟨g, _, _, _, _, _, hg⟩
  · obtain rfl := Host.Outcome.next.inj (h.symm.trans he)
    exact ⟨rfl, rfl⟩
  have hl : statusLast t.status = 0 := by
    rw [← Host.Outcome.next.inj (hg.symm.trans h)]
    exact statusLast_statusComplete g _
  simp only [List.mem_cons, List.not_mem_nil, hi, or_false, not_not] at henc
  rcases henc with rfl | rfl
  · obtain ⟨_, _, rfl⟩ := exec_sample_completed h hl
    exact ⟨rfl, rfl⟩
  · obtain ⟨_, _, rfl⟩ := exec_cell_completed h hl
    exact ⟨rfl, rfl⟩

/-- A word that changes `OUTLEN` or OUT completed: an error leaves both alone. -/
theorem issue_last_of_out_ne {d : Word} {s t : State} (h : issue d s = .next t)
    (hne : t.outlen ≠ s.outlen ∨ t.out ≠ s.out) : statusLast t.status = 0 := by
  rcases issue_cases d s with ⟨e, he⟩ | ⟨g, _, _, _, _, _, hg⟩
  · obtain rfl := Host.Outcome.next.inj (h.symm.trans he)
    simp at hne
  · obtain rfl := Host.Outcome.next.inj (h.symm.trans hg)
    exact statusLast_statusComplete g _

/-- A word that changes `OUTLEN` or OUT is `FRAME`: no other command writes them. -/
theorem issue_frame_of_out_ne {d : Word} {s t : State} (h : issue d s = .next t)
    (hne : t.outlen ≠ s.outlen ∨ t.out ≠ s.out) : decode d = .ok .frame := by
  cases hd : decode d with
  | ok i =>
    rw [issue_ok hd] at h
    by_cases hi : i = .frame
    · rw [hi]
    · obtain ⟨hlen, hout⟩ := exec_out_of_ne_frame hi h
      exact absurd hne (by simp [hlen, hout])
  | illegal why =>
    obtain rfl := Host.Outcome.next.inj (h.symm.trans (issue_illegal hd s))
    simp at hne

/-- Settles O46: errors and the other commands leave both alone, and the length fits 32 bits. -/
theorem onlyACompletedFrameWritesOutlen : Obligations.OnlyACompletedFrameWritesOutlen := by
  intro d s t h
  refine ⟨fun hne => ⟨issue_frame_of_out_ne h hne, issue_last_of_out_ne h hne⟩, fun hd hl hcw => ?_⟩
  rw [issue_ok hd] at h
  obtain ⟨hv, rfl⟩ := exec_frame_completed h hl
  exact frameRows_k_toNat hv hcw

/-- A byte is no code point, whatever the mask. -/
theorem byte_ne_glyph {v : BitVec 16} (hv : v.toNat ≤ 0xFF) (m : DotMask) : v.toNat ≠ 0x2800 + (toStd m).toNat := by
  omega

/-- Settles O47: the three commands that write both results take `RES` from the ROM entry of `MASK`; the
other four leave a byte in `RES`. -/
theorem resIsTheGlyphOfMask : Obligations.ResIsTheGlyphOfMask := by
  intro i s t h hl
  constructor
  · rintro (⟨m, rfl⟩ | rfl | rfl)
    · obtain rfl := Host.Outcome.next.inj ((exec_glyph m s).symm.trans h)
      exact gromRead_cp_toNat m
    · obtain ⟨g, m, rfl⟩ := exec_cell_completed h hl
      exact gromRead_cp_toNat m
    · obtain ⟨hv, rfl⟩ := exec_frame_completed h hl
      simpa [frameRows_res hv] using gromRead_cp_toNat (frameRows s).mask
  · rintro (⟨m, rfl⟩ | ⟨m, rfl⟩ | ⟨p, rfl⟩ | rfl)
    · obtain rfl := Host.Outcome.next.inj ((exec_tostd m s).symm.trans h)
      exact ⟨rfl, byte_ne_glyph (zext16_toNat_le _) _⟩
    · obtain rfl := Host.Outcome.next.inj ((exec_toint m s).symm.trans h)
      exact ⟨rfl, byte_ne_glyph (zext16_toNat_le _) _⟩
    · obtain rfl := Host.Outcome.next.inj ((exec_dotbit p s).symm.trans h)
      exact ⟨rfl, byte_ne_glyph (zext16_toNat_le _) _⟩
    · obtain ⟨g, b, rfl⟩ := exec_sample_completed h hl
      exact ⟨rfl, byte_ne_glyph (bit16_toNat_le b) _⟩

/-! ### The register map -/

/-- A read of an index is a lookup in the words of the nineteen registers (10_state.md R48). -/
theorem readIndex_eq_getD (s : State) (a : BitVec 8) :
    readIndex s a = (regMap.map (readReg s)).getD a.toNat 0 := by
  rw [readIndex, regAt, List.getD_eq_getElem?_getD, List.getElem?_map]
  cases regMap[a.toNat]? <;> rfl

/-- Settles O49: the read's word is looked up in the register map, and the reply is all a read leaves. -/
theorem registerReadReturnsTheMap : Obligations.RegisterReadReturnsTheMap := by
  intro s a rest hs table
  have htable : table = regMap.map (readReg { s with host := rest }) := rfl
  rw [hostStep_cons s _ rest hs, htable, ← readIndex_eq_getD]
  rfl

/-- The indexes from 0x13 on are reserved (10_state.md R50). -/
theorem regAt_reserved {a : BitVec 8} (h : 0x13 ≤ a.toNat) : regAt a = none :=
  List.getElem?_eq_none h

/-- A bit of a word that a mask takes to 0 is 0 where the mask's bit is 1. -/
theorem getLsbD_of_and_eq_zero {w m : Word} (h : w &&& m = 0#32) {b : Nat} (hb : m.getLsbD b = true) :
    w.getLsbD b = false := by
  simpa [hb] using congrArg (·.getLsbD b) h

theorem extractLsb'_eq_zero {w : Word} {lo len : Nat} (h : ∀ i < len, w.getLsbD (lo + i) = false) :
    w.extractLsb' lo len = 0 := by
  ext i hi
  simp [h i hi]

/-- Settles O51: no register stands at a reserved index, and the invariant keeps the reserved bits 0. -/
theorem reservedIndexesReadZero : Obligations.ReservedIndexesReadZero := by
  refine ⟨fun s a d ha => ?_, fun s h => ?_⟩
  · simp only [readIndex, writeIndex, regAt_reserved ha, and_self]
  · have hread : readIndex s 0x01 = s.status := rfl
    rw [hread]
    exact ⟨extractLsb'_eq_zero fun i hi => getLsbD_of_and_eq_zero h.reserved (by interval_cases i <;> rfl),
      extractLsb'_eq_zero fun i hi => getLsbD_of_and_eq_zero h.reserved (by interval_cases i <;> rfl)⟩

/-- The words of the registers at the indexes 0x00 to 0x0D: `CMD`, `STATUS` and the twelve RW registers
(10_state.md R22). The scaled sizes, functions of the configuration (R39), stand above them. -/
def lowWords (s : State) : List Word := (regMap.take 0x0E).map (readReg s)

theorem readIndex_eq_lowWords (s : State) {b : BitVec 8} (hb : b.toNat ≤ 0x0D) :
    readIndex s b = (lowWords s).getD b.toNat 0 := by
  rw [readIndex_eq_getD, lowWords, List.map_take, List.getD_eq_getElem?_getD, List.getD_eq_getElem?_getD,
    List.getElem?_take_of_lt (by omega)]

/-- A write in 0x02 to 0x0D replaces the word at its index by all 32 bits written (10_state.md R21, R49). -/
theorem lowWords_writeIndex {a : BitVec 8} (h2 : 2 ≤ a.toNat) (hD : a.toNat ≤ 0x0D) (d : Word) (s : State) :
    lowWords (writeIndex a d s) = (lowWords s).set a.toNat d := by
  rw [writeIndex, regAt]
  interval_cases a.toNat <;> rfl

/-- A write to an RO register or a reserved index stores nothing (10_state.md R49, R50). -/
theorem writeIndex_of_ro {a : BitVec 8} (h : a.toNat < 2 ∨ 0x0D < a.toNat) (d : Word) (s : State) :
    writeIndex a d s = s := by
  by_cases hres : 0x13 ≤ a.toNat
  · rw [writeIndex, regAt_reserved hres]
  · rw [writeIndex, regAt]
    rcases h with h | h
    · interval_cases a.toNat <;> rfl
    · interval_cases a.toNat <;> rfl

/-- A write in 0x02 to 0x0D reads back (10_state.md R49). -/
theorem readIndex_writeIndex_self {a : BitVec 8} (h2 : 2 ≤ a.toNat) (hD : a.toNat ≤ 0x0D) (d : Word) (s : State) :
    readIndex (writeIndex a d s) a = d := by
  have hlen : a.toNat < (lowWords s).length := Nat.lt_succ_of_le hD
  rw [readIndex_eq_lowWords _ hD, lowWords_writeIndex h2 hD, List.getD_eq_getElem?_getD,
    List.getElem?_set_self hlen, Option.getD_some]

/-- A write in 0x02 to 0x0D leaves the other words up to 0x0D as they were (10_state.md R49). -/
theorem readIndex_writeIndex_of_ne {a b : BitVec 8} (h2 : 2 ≤ a.toNat) (hD : a.toNat ≤ 0x0D) (hne : b ≠ a)
    (hb : b.toNat ≤ 0x0D) (d : Word) (s : State) : readIndex (writeIndex a d s) b = readIndex s b := by
  have hne' : a.toNat ≠ b.toNat := fun h => hne (BitVec.eq_of_toNat_eq h.symm)
  rw [readIndex_eq_lowWords _ hb, readIndex_eq_lowWords _ hb, lowWords_writeIndex h2 hD,
    List.getD_eq_getElem?_getD, List.getElem?_set_ne hne', List.getD_eq_getElem?_getD]

/-- Settles O50: index 0 issues the command, every other index is a `writeIndex`, whose reads and frame are
above. -/
theorem registerWriteStoresOneRegister : Obligations.RegisterWriteStoresOneRegister := by
  intro s a d rest hs
  rw [hostStep_cons s _ rest hs]
  refine ⟨fun ha => ?_, fun ha => ?_⟩
  · obtain rfl : a = 0 := BitVec.eq_of_toNat_eq ha
    exact regWrite_cmd d _
  · have ha0 : a ≠ 0 := fun h => ha (congrArg BitVec.toNat h)
    refine ⟨_, regWrite_other ha0 d _, writeIndex_eq a d _, fun ⟨h2, hD⟩ => ⟨?_, fun b hne hb => ?_⟩,
      fun hro => by rw [writeIndex_of_ro hro], ?_⟩
    · exact readIndex_writeIndex_self h2 hD d _
    · exact readIndex_writeIndex_of_ne h2 hD hne hb d _
    · rintro rfl rfl hft
      have htheta : (writeIndex 0x06 0x00008000 { s with host := rest }).rw.cfgTheta.toNat = 2 ^ 15 := rfl
      rw [thetaQ, htheta, writeIndex_params, hft]
      norm_num

/-! ### The scaled size registers -/

theorem readIndex_scaledW_toNat {s : State} (h : scaledW s.params s.rw < 2 ^ 32) :
    (readIndex s 0x10).toNat = scaledW s.params s.rw :=
  (BitVec.toNat_ofNat _ 32).trans (Nat.mod_eq_of_lt h)

theorem readIndex_scaledH_toNat {s : State} (h : scaledH s.params s.rw < 2 ^ 32) :
    (readIndex s 0x11).toNat = scaledH s.params s.rw :=
  (BitVec.toNat_ofNat _ 32).trans (Nat.mod_eq_of_lt h)

/-- `n` cells of `b` dots and `n - 1` gaps, three pixels each less the last, in ℤ and counted from the last
cell's origin (10_state.md R39). -/
theorem scaledSize_eq {n b t : Nat} (hn : 1 ≤ n) (hb : 1 ≤ b) :
    (((n - 1) * (3 * b + 3 * t) + (3 * b - 1) : Nat) : ℤ) = (b * (n : ℤ) + t * ((n : ℤ) - 1)) * 3 - 1 := by
  obtain ⟨m, rfl⟩ := Nat.exists_eq_add_of_le' hn
  obtain ⟨c, rfl⟩ := Nat.exists_eq_add_of_le' hb
  have hc : 3 * (c + 1) - 1 = 3 * c + 2 := by omega
  rw [Nat.add_sub_cancel, hc]
  push_cast
  ring

/-- Settles O31: the registers read `scaledW` and `scaledH`, which `GeomValid` gives or makes 0. -/
theorem scaledSizeRegistersRead : Obligations.ScaledSizeRegistersRead := by
  refine ⟨?_, by decide, by decide⟩
  intro s hw32 hh32 W H T L geom
  refine ⟨fun hg => ?_, fun hg => ?_⟩
  · have hv : geomValid s.params s.rw = true := (geomValid_iff _ _).2 hg
    obtain ⟨⟨hW, -⟩, ⟨hH, -⟩, -⟩ := hg
    have hw : (readIndex s 0x10).toNat = (W - 1) * (6 + 3 * T) + 5 :=
      (readIndex_scaledW_toNat hw32).trans (scaledW_eq_cellX0 hv)
    have hh : (readIndex s 0x11).toNat = (H - 1) * (12 + 3 * L) + 11 :=
      (readIndex_scaledH_toNat hh32).trans (scaledH_eq_cellY0 hv)
    exact ⟨hw ▸ scaledSize_eq (b := 2) hW (by decide), hh ▸ scaledSize_eq (b := 4) hH (by decide), hw, hh⟩
  · have hv : geomValid s.params s.rw = false := Bool.eq_false_iff.2 (mt (geomValid_iff _ _).1 hg)
    have hw : scaledW s.params s.rw = 0 := by simp [scaledW, hv]
    have hh : scaledH s.params s.rw = 0 := by simp [scaledH, hv]
    exact ⟨congrArg (BitVec.ofNat 32) hw, congrArg (BitVec.ofNat 32) hh⟩

end Sys2Proof.Machine
end

section
/-! SUPPORT. The memories (20_memory.md): the fields of a ROM entry, what a command reads of a pixel word, and
what `FRAME` leaves of OUT. -/

namespace Sys2Proof.Machine

/-! ### The glyph ROM -/

/-- The low 8 bits of a code point are the ISO Pattern (30_encoding.md R95). -/
theorem gromRead_cp_low (k : DotMask) : (gromRead k).cp.extractLsb' 0 8 = toStd k := by
  have hlt := (toStd k).isLt
  apply BitVec.eq_of_toNat_eq
  rw [BitVec.extractLsb'_toNat, gromRead_cp_toNat, Nat.shiftRight_zero]
  omega

/-- The high 8 bits of a code point are those of the Braille block (30_encoding.md R95). -/
theorem gromRead_cp_high (k : DotMask) : (gromRead k).cp.extractLsb' 8 8 = 0x28#8 := by
  have hlt := (toStd k).isLt
  apply BitVec.eq_of_toNat_eq
  rw [BitVec.extractLsb'_toNat, gromRead_cp_toNat, Nat.shiftRight_eq_div_pow, BitVec.toNat_ofNat]
  omega

/-- Settles O14: a ROM read is the pair (k, 0x2800 + ToStd(k)), and `ToStd(k)` stays below 256. -/
theorem gromEntriesAreBrailleGlyphs : Obligations.GromEntriesAreBrailleGlyphs :=
  ⟨fun k => ⟨gromRead_mask k, gromRead_cp_toNat k, gromRead_isGlyph k, gromRead_cp_low k, gromRead_cp_high k⟩,
    by decide, by decide⟩

/-- Settles O60: `GromRead(k)` is the two fields of the entry, and the entry packs them without overlap. -/
theorem gromWordPacksMaskAndCodePoint : Obligations.GromWordPacksMaskAndCodePoint := by
  intro k
  have hnum : (gromWord k).toNat = k.toNat * 2 ^ 16 + (0x2800 + (toStd k).toNat) := by
    rw [gromWord, gromPack_toNat, ← gromRead_cp, gromRead_cp_toNat]
  exact ⟨gromRead_mask k, gromRead_cp_toNat k, hnum, rfl, rfl⟩

/-! ### Bits 31:24 of a pixel word -/

/-- The darkness of a pixel is a function of its bits 23:0 (20_memory.md R62). -/
theorem darkness_congr {p q : Word} (h : p.extractLsb' 0 24 = q.extractLsb' 0 24) : darkness p = darkness q := by
  have hchannel : ∀ lo, lo + 8 ≤ 24 → p.extractLsb' lo 8 = q.extractLsb' lo 8 := by
    intro lo hlo
    ext b hb
    simpa [show lo + b < 24 by omega] using congrArg (·.getLsbD (lo + b)) h
  have hr : pixR p = pixR q := congrArg BitVec.toNat (hchannel 16 (by decide))
  have hg : pixG p = pixG q := congrArg BitVec.toNat (hchannel 8 (by decide))
  have hb : pixB p = pixB q := congrArg BitVec.toNat (hchannel 0 (by decide))
  simp only [darkness, luma, hr, hg, hb]

/-- `FRAME`'s rows are made of the cells, the registers and the state before. -/
theorem frameRows_congr {s t : State} (hrw : t.rw = s.rw) (hstart : frameStart t = frameStart s)
    (hcell : ∀ r c, cellDots t r c = cellDots s r c) : frameRows t = frameRows s := by
  have hc : ∀ r, frameCell t r = frameCell s r := fun r => by
    funext a c
    simp only [frameCell, hcell]
  have hr : frameRow t = frameRow s := by
    funext a r
    rw [frameRow, hrw, hc, frameRow]
  rw [frameRows, hrw, hr, hstart, frameRows]

/-- Two buffers whose pixels are equally dark: no command tells them apart, because `Sample` reads darkness
only. -/
theorem exec_pix_congr {s : State} {pix : PixSpace}
    (h : ∀ x y, darkness (pixWord { s with pix := pix } x y) = darkness (pixWord s x y)) (i : Instr) :
    ∃ t, exec i s = .next t ∧ exec i { s with pix := pix } = .next { t with pix := pix } := by
  have hdot : ∀ xs ys, sampleDot { s with pix := pix } xs ys = sampleDot s xs ys := fun xs ys =>
    sampleDot_congr rfl rfl rfl (accumulate_congr rfl rfl fun _ _ _ => h _ _)
  have hcell : ∀ r c, cellDots { s with pix := pix } r c = cellDots s r c := fun r c =>
    cellDots_congr fun _ _ => hdot _ _
  cases i with
  | tostd m => exact ⟨_, exec_tostd m s, exec_tostd m _⟩
  | toint m => exact ⟨_, exec_toint m s, exec_toint m _⟩
  | glyph m => exact ⟨_, exec_glyph m s, exec_glyph m _⟩
  | dotbit p => exact ⟨_, exec_dotbit p s, exec_dotbit p _⟩
  | sample =>
    cases hv : cfgValid s.params s.rw with
    | false => exact ⟨_, exec_sample_invalid hv, exec_sample_invalid hv⟩
    | true =>
      refine ⟨_, exec_sample_valid hv, ?_⟩
      rw [exec_sample_valid (s := { s with pix := pix }) hv, hdot]
      rfl
  | cell =>
    cases hv : cfgValid s.params s.rw with
    | false => exact ⟨_, exec_cell_invalid hv, exec_cell_invalid hv⟩
    | true =>
      cases hr : cellInRange s.rw with
      | false => exact ⟨_, exec_cell_outside hv hr, exec_cell_outside hv hr⟩
      | true =>
        refine ⟨_, exec_cell_valid hv hr, ?_⟩
        rw [exec_cell_valid (s := { s with pix := pix }) hv hr, cellGlyph, hcell]
        rfl
  | frame =>
    cases hv : cfgValid s.params s.rw with
    | false => exact ⟨_, exec_frame_invalid hv, exec_frame_invalid hv⟩
    | true =>
      cases hd : frameDimsOk s.params s.rw with
      | false => exact ⟨_, exec_frame_dims hv hd, exec_frame_dims hv hd⟩
      | true =>
        have hrows : frameRows { s with pix := pix } = frameRows s := frameRows_congr rfl rfl hcell
        refine ⟨_, exec_frame_valid hv hd, ?_⟩
        rw [exec_frame_valid (s := { s with pix := pix }) hv hd, hrows]
        rfl

/-- Settles O26: a command reads a pixel's darkness only, which ignores bits 31:24. -/
theorem alphaBitsAreIgnored : Obligations.AlphaBitsAreIgnored := fun i _ _ h =>
  exec_pix_congr (fun x y => darkness_congr (h x y)) i

/-! ### OUT after `FRAME` -/

/-- A command that leaves `LAST` ≠ 0 raised (60_exceptions.md R225). -/
theorem exec_raised {i : Instr} {s t : State} (h : exec i s = .next t) (hl : statusLast t.status ≠ 0) :
    ∃ e, t = raise e s := by
  rcases exec_cases i s with ⟨e, he⟩ | ⟨g, _, _, _, _, _, hg⟩
  · exact ⟨e, Host.Outcome.next.inj (h.symm.trans he)⟩
  · obtain rfl := Host.Outcome.next.inj (h.symm.trans hg)
    exact absurd (statusLast_statusComplete g _) hl

/-- OUT after a completed `FRAME`, split at `OUTLEN` (20_memory.md R73). -/
theorem outAt_of_frame_completed {s t : State} (hcw : s.params.cw ≤ 16) (h : exec .frame s = .next t)
    (hl : statusLast t.status = 0) (k : Nat) :
    outAt t k = if k < t.outlen.toNat then some (gridUnit s s.rw.cfgW.toNat k) else outAt s k := by
  obtain ⟨hv, rfl⟩ := exec_frame_completed h hl
  rw [advanceFresh_outlen, complete_outlen, frameStore_outlen, frameRows_k_toNat hv hcw]
  exact outAt_frameStore s k

/-- Settles O36: a completed `FRAME` fills the `OUTLEN` locations of its grid, and an error writes `STATUS`
only. -/
theorem frameWritesExactlyBelowOutlen : Obligations.FrameWritesExactlyBelowOutlen := by
  intro s t hcw h
  refine ⟨fun hl => ⟨fun k hk => ?_, fun k hk => ?_⟩, fun hl k => ?_⟩
  · rw [outAt_of_frame_completed hcw h hl, if_pos hk]
    rfl
  · rw [outAt_of_frame_completed hcw h hl, if_neg hk.not_gt]
  · obtain ⟨e, rfl⟩ := exec_raised h hl
    rfl

end Sys2Proof.Machine
end

section
/-! SUPPORT. The command words (30_encoding.md): a word decodes to a command iff it is that command's word; the
masked comparison, the illegal words and the count of the legal ones follow. And what no command changes
(R105). -/

namespace Sys2Proof

/-! ### One word per command -/

@[simp] theorem fieldHi_layout (op : BitVec 4) (imm : BitVec 8) : fieldHi (layout op imm) = 0 := by
  rw [bitVec_eq_zero_iff, fieldHi_toNat, layout_toNat]
  omega

@[simp] theorem fieldZ_layout (op : BitVec 4) (imm : BitVec 8) : fieldZ (layout op imm) = 0 := by
  rw [bitVec_eq_zero_iff, fieldZ_toNat, layout_toNat]
  omega

@[simp] theorem fieldOp_layout (op : BitVec 4) (imm : BitVec 8) : fieldOp (layout op imm) = op := by
  apply BitVec.eq_of_toNat_eq
  rw [fieldOp_toNat, layout_toNat]
  omega

@[simp] theorem fieldImm_layout (op : BitVec 4) (imm : BitVec 8) : fieldImm (layout op imm) = imm := by
  apply BitVec.eq_of_toNat_eq
  rw [fieldImm_toNat, layout_toNat]
  omega

/-- `DOTBIT`'s position fills `imm3` and leaves the bits above it 0 (30_encoding.md R102). -/
theorem dotbit_fields_layout (op : BitVec 4) {p : Nat} (hp : p < 8) :
    fieldImmHigh (layout op (BitVec.ofNat 8 p)) = 0 ∧ (fieldImm3 (layout op (BitVec.ofNat 8 p))).toNat = p := by
  rw [bitVec_eq_zero_iff, fieldImmHigh_toNat, fieldImm3_toNat, layout_toNat, BitVec.toNat_ofNat]
  omega

/-- The word of a well-formed command decodes to it. -/
theorem decode_encode {i : Instr} (h : i.wellFormed = true) : decode (encode i) = .ok i := by
  cases i with
  | tostd m | toint m | glyph m => simp [encode, decode]
  | dotbit p =>
    obtain ⟨hhigh, hp⟩ := dotbit_fields_layout 4#4 (of_decide_eq_true h)
    simp [encode, decode, hhigh, hp]
  | sample | cell | frame => simp [encode, decode, decodeNFormat]

/-- A word is the layout of its fields. -/
theorem layout_fields {d : Word} (hhi : fieldHi d = 0) (hz : fieldZ d = 0) :
    layout (fieldOp d) (fieldImm d) = d := by
  rw [bitVec_eq_zero_iff, fieldHi_toNat] at hhi
  rw [bitVec_eq_zero_iff, fieldZ_toNat] at hz
  apply BitVec.eq_of_toNat_eq
  rw [layout_toNat, fieldOp_toNat, fieldImm_toNat]
  omega

theorem fieldImm_eq_imm3 {d : Word} (h : fieldImmHigh d = 0) : BitVec.ofNat 8 (fieldImm3 d).toNat = fieldImm d := by
  rw [bitVec_eq_zero_iff, fieldImmHigh_toNat] at h
  apply BitVec.eq_of_toNat_eq
  rw [BitVec.toNat_ofNat, fieldImm3_toNat, fieldImm_toNat]
  omega

theorem decodeNFormat_eq_ok {i j : Instr} {d : Word} (h : decodeNFormat i d = .ok j) : fieldImm d = 0 ∧ i = j := by
  by_cases himm : fieldImm d = 0
  · exact ⟨himm, Decoded.ok.inj ((if_pos himm).symm.trans h)⟩
  · cases (if_neg himm).symm.trans h

/-- A word that decodes is the word of its command. -/
theorem encode_of_decode {d : Word} {i : Instr} (h : decode d = .ok i) : encode i = d := by
  rw [decode] at h
  split at h
  · cases h
  split at h
  · cases h
  next hhi hz =>
    have hlayout : ∀ {op : BitVec 4}, (fieldOp d).toNat = op.toNat → layout op (fieldImm d) = d := fun hop =>
      BitVec.eq_of_toNat_eq hop ▸ layout_fields (not_not.1 hhi) (not_not.1 hz)
    have hlayoutN : ∀ {op : BitVec 4}, (fieldOp d).toNat = op.toNat → fieldImm d = 0 → layout op 0#8 = d :=
      fun hop himm => (congrArg (layout _) himm).symm.trans (hlayout hop)
    split at h
    next hop => cases h; exact hlayout hop
    next hop => cases h; exact hlayout hop
    next hop => cases h; exact hlayout hop
    next hop =>
      split at h
      next hhigh =>
        cases h
        rw [encode, fieldImm_eq_imm3 hhigh]
        exact hlayout hop
      next => cases h
    next hop => obtain ⟨himm, rfl⟩ := decodeNFormat_eq_ok h; exact hlayoutN hop himm
    next hop => obtain ⟨himm, rfl⟩ := decodeNFormat_eq_ok h; exact hlayoutN hop himm
    next hop => obtain ⟨himm, rfl⟩ := decodeNFormat_eq_ok h; exact hlayoutN hop himm
    next => cases h

/-- The decoder, in one line: the word has the command's number (30_encoding.md R104). -/
theorem decode_eq_ok_iff {d : Word} {i : Instr} :
    decode d = .ok i ↔ i.wellFormed = true ∧ d.toNat = wordNumber i := by
  constructor
  · intro h
    have hi := decode_wellFormed h
    exact ⟨hi, encode_of_decode h ▸ encode_toNat hi⟩
  · rintro ⟨hi, h⟩
    exact BitVec.eq_of_toNat_eq (h.trans (encode_toNat hi).symm) ▸ decode_encode hi

/-! ### The masked comparison -/

/-- A mask that clears the low `k` bits leaves the number `2^k * q` iff the quotient by `2^k` is `q`. -/
theorem and_allOnes_shiftLeft_eq_iff {d v : Word} {k q : Nat} (hv : v.toNat = 2 ^ k * q) :
    d &&& (BitVec.allOnes 32 <<< k) = v ↔ d.toNat / 2 ^ k = q := by
  have hd : 2 ^ k * (d.toNat / 2 ^ k) < 2 ^ 32 := (Nat.mul_div_le _ _).trans_lt d.isLt
  rw [← BitVec.shiftLeft_ushiftRight, ← BitVec.toNat_inj, BitVec.toNat_shiftLeft, BitVec.toNat_ushiftRight,
    Nat.shiftRight_eq_div_pow, Nat.shiftLeft_eq, Nat.mul_comm, Nat.mod_eq_of_lt hd, hv]
  exact Nat.mul_right_inj (Nat.two_pow_pos k).ne'

/-- A row of the opcode table with a `k`-bit operand `n`: the word is the command's iff the masked word is the
row's match and `n` the low `k` bits (30_encoding.md R101, R102, R104). -/
theorem decode_row_iff {d mask v : Word} {i : Instr} {n : Nat} (k : Nat)
    (hmask : mask = BitVec.allOnes 32 <<< k) (hv : 2 ^ k ∣ v.toNat)
    (hwf : i.wellFormed = true ↔ n < 2 ^ k) (hnum : wordNumber i = v.toNat + n) :
    decode d = .ok i ↔ d &&& mask = v ∧ n = (d.extractLsb' 0 k).toNat := by
  obtain ⟨q, hq⟩ := hv
  have hunique : d.toNat / 2 ^ k = q ∧ d.toNat % 2 ^ k = n ↔ n + 2 ^ k * q = d.toNat ∧ n < 2 ^ k :=
    Nat.div_mod_unique (Nat.two_pow_pos k)
  rw [decode_eq_ok_iff, hwf, hnum, hq, hmask, and_allOnes_shiftLeft_eq_iff hq, extract_toNat, pow_zero,
    Nat.div_one, eq_comm (a := n), hunique, Nat.add_comm n, eq_comm (a := d.toNat), and_comm]

/-- The rows with an 8-bit operand. -/
theorem decode_imm8_iff {d v : Word} {i : Instr} {m : DotMask} (hi : i.wellFormed = true)
    (hv : 2 ^ 8 ∣ v.toNat) (hnum : wordNumber i = v.toNat + m.toNat) :
    decode d = .ok i ↔ d &&& 0xFFFFFF00#32 = v ∧ m = d.extractLsb' 0 8 := by
  rw [← BitVec.toNat_inj (x := m)]
  exact decode_row_iff 8 rfl hv (iff_of_true hi m.isLt) hnum

/-- The rows without an operand. -/
theorem decode_nFormat_iff {d v : Word} {i : Instr} (hi : i.wellFormed = true) (hnum : wordNumber i = v.toNat) :
    decode d = .ok i ↔ d &&& 0xFFFFFFFF#32 = v :=
  (decode_row_iff 0 rfl (one_dvd _) (iff_of_true hi one_pos) hnum).trans
    (and_iff_left (BitVec.toNat_of_zero_length rfl _).symm)

/-- Settles O1: the seven rows, each with the width of its operand. -/
theorem commandSelectedIffMaskedWordMatches : Obligations.CommandSelectedIffMaskedWordMatches := by
  intro d
  refine ⟨fun m => ?_, fun m => ?_, fun m => ?_, fun p => ?_, ?_, ?_, ?_⟩
  · exact decode_imm8_iff rfl (by decide) rfl
  · exact decode_imm8_iff rfl (by decide) rfl
  · exact decode_imm8_iff rfl (by decide) rfl
  · exact decode_row_iff 3 rfl (by decide) decide_eq_true_iff rfl
  · exact decode_nFormat_iff rfl rfl
  · exact decode_nFormat_iff rfl rfl
  · exact decode_nFormat_iff rfl rfl

/-! ### The illegal words and the legal ones -/

theorem exists_eq_illegal_iff (x : Decoded) : (∃ why, x = .illegal why) ↔ x.instr? = none := by
  cases x with
  | ok i => exact iff_of_false nofun nofun
  | illegal why => exact iff_of_true ⟨why, rfl⟩ rfl

@[simp] theorem instr?_ok (i : Instr) : (Decoded.ok i).instr? = some i := rfl
@[simp] theorem instr?_illegal (why : IllegalWord) : (Decoded.illegal why).instr? = none := rfl

/-- Where a branch of the decoder asks for an immediate, the illegal words are those that do not have it. -/
@[simp] theorem instr?_ite_eq_none {c : Prop} [Decidable c] {i : Instr} {why : IllegalWord} :
    (if c then Decoded.ok i else .illegal why).instr? = none ↔ ¬ c := by
  by_cases hc : c <;> simp [hc]

/-- The illegal words, by their fields: each branch of the decoder answers one clause (30_encoding.md R110). -/
theorem exists_illegal_iff (d : Word) :
    (∃ why, decode d = .illegal why) ↔
      fieldHi d ≠ 0 ∨ fieldZ d ≠ 0 ∨ ((fieldOp d).toNat = 0 ∨ 8 ≤ (fieldOp d).toNat) ∨
        ((fieldOp d).toNat = 4 ∧ fieldImmHigh d ≠ 0) ∨
        (5 ≤ (fieldOp d).toNat ∧ (fieldOp d).toNat ≤ 7 ∧ fieldImm d ≠ 0) := by
  rw [exists_eq_illegal_iff, decode]
  by_cases hhi : fieldHi d ≠ 0
  · exact iff_of_true (by rw [if_pos hhi]; rfl) (.inl hhi)
  rw [if_neg hhi, or_iff_right hhi]
  by_cases hz : fieldZ d ≠ 0
  · exact iff_of_true (by rw [if_pos hz]; rfl) (.inl hz)
  rw [if_neg hz, or_iff_right hz]
  generalize (fieldOp d).toNat = op
  rcases op with _ | _ | _ | _ | _ | _ | _ | _ | op
  case succ.succ.succ.succ.succ.succ.succ.succ => exact iff_of_true rfl (.inl (.inr (Nat.le_add_left 8 op)))
  all_goals
    simp only [decodeNFormat, instr?_ok, instr?_illegal, instr?_ite_eq_none, ne_eq, Nat.reduceAdd, Nat.reduceEqDiff,
      Nat.reduceLeDiff, zero_add, reduceCtorEq, false_and, true_and, or_false, false_or]

/-- Settles O5: the clauses are the decoder's branches, and issuing an illegal word raises `ILLCMD`. -/
theorem illegalWordsEndIllcmd : Obligations.IllegalWordsEndIllcmd := by
  refine ⟨fun d => ⟨exists_illegal_iff d, fun ⟨why, h⟩ s => ?_⟩, .noSuchOp, by decide⟩
  rw [Machine.issue_illegal h]
  exact Machine.endsIn_raise _ s

/-- The operands of the legal words: three commands with 8 bits, `DOTBIT` with 3, three with none
(30_encoding.md R111). -/
abbrev LegalOperand := (Fin 3 × Fin (2 ^ 8)) ⊕ Fin (2 ^ 3) ⊕ Fin 3

/-- The command with an operand. -/
def operandInstr : LegalOperand → Instr
  | .inl (0, m) => .tostd (.ofFin m)
  | .inl (1, m) => .toint (.ofFin m)
  | .inl (2, m) => .glyph (.ofFin m)
  | .inr (.inl p) => .dotbit p
  | .inr (.inr 0) => .sample
  | .inr (.inr 1) => .cell
  | .inr (.inr 2) => .frame

/-- The operand of a command; a position that has no encoding is cut to 3 bits. -/
def instrOperand : Instr → LegalOperand
  | .tostd m => .inl (0, m.toFin)
  | .toint m => .inl (1, m.toFin)
  | .glyph m => .inl (2, m.toFin)
  | .dotbit p => .inr (.inl (.ofNat _ p))
  | .sample => .inr (.inr 0)
  | .cell => .inr (.inr 1)
  | .frame => .inr (.inr 2)

theorem instrOperand_operandInstr : Function.LeftInverse instrOperand operandInstr := by
  rintro (⟨k, m⟩ | p | k)
  · fin_cases k <;> rfl
  · exact congrArg (Sum.inr ∘ Sum.inl) (Fin.ofNat_val_eq_self p)
  · fin_cases k <;> rfl

theorem operandInstr_wellFormed (x : LegalOperand) : (operandInstr x).wellFormed = true := by
  rcases x with ⟨k, m⟩ | p | k
  · fin_cases k <;> rfl
  · exact decide_eq_true p.isLt
  · fin_cases k <;> rfl

theorem operandInstr_instrOperand {i : Instr} (h : i.wellFormed = true) : operandInstr (instrOperand i) = i := by
  cases i with
  | dotbit p => exact congrArg Instr.dotbit (Nat.mod_eq_of_lt (of_decide_eq_true h))
  | _ => rfl

/-- The legal words are the words of the commands, one for each operand. -/
theorem legalWords_eq_range : {d : Word | ∃ i, decode d = .ok i} = Set.range (encode ∘ operandInstr) := by
  ext d
  constructor
  · rintro ⟨i, h⟩
    refine ⟨instrOperand i, ?_⟩
    rw [Function.comp_apply, operandInstr_instrOperand (decode_wellFormed h)]
    exact encode_of_decode h
  · rintro ⟨x, rfl⟩
    exact ⟨_, decode_encode (operandInstr_wellFormed x)⟩

theorem encode_operandInstr_injective : Function.Injective (encode ∘ operandInstr) := by
  intro x y h
  have hdecode := congrArg decode h
  rw [Function.comp_apply, Function.comp_apply, decode_encode (operandInstr_wellFormed x),
    decode_encode (operandInstr_wellFormed y)] at hdecode
  exact instrOperand_operandInstr.injective (Decoded.ok.inj hdecode)

/-- Settles O6: one legal word for each operand, and 2^8·3 + 2^3 + 3 operands. -/
theorem thereAre779LegalWords : Obligations.ThereAre779LegalWords := by
  rw [Obligations.ThereAre779LegalWords, legalWords_eq_range,
    Set.ncard_range_of_injective encode_operandInstr_injective, Nat.card_eq_fintype_card]
  simp only [Fintype.card_sum, Fintype.card_prod, Fintype.card_fin, Nat.reducePow, Nat.reduceMul, Nat.reduceAdd]

/-- Settles O2: the words of the seven commands, and no command for the nine others. -/
theorem writtenOutWordsDecode : Obligations.WrittenOutWordsDecode :=
  ⟨rfl, rfl, rfl, rfl, rfl, rfl, rfl, by decide⟩

end Sys2Proof

namespace Sys2Proof.Machine

/-! ### What changes the configuration -/

/-- No command changes the RW registers, PIX or the parameters (30_encoding.md R105). -/
theorem issue_keeps_configuration {d : Word} {s t : State} (h : issue d s = .next t) :
    t.params = s.params ∧ t.rw = s.rw ∧ t.pix = s.pix := by
  rcases issue_cases d s with ⟨e, he⟩ | ⟨_, _, _, _, _, _, hg⟩
  · obtain rfl := Host.Outcome.next.inj (h.symm.trans he)
    exact ⟨rfl, rfl, rfl⟩
  · obtain rfl := Host.Outcome.next.inj (h.symm.trans hg)
    exact ⟨rfl, rfl, rfl⟩

/-- A host write changes an RW register only at the indexes 0x02 to 0x0D (10_state.md R22, R49). -/
theorem index_of_writeIndex_rw_ne {a : BitVec 8} {d : Word} {s : State} (h : (writeIndex a d s).rw ≠ s.rw) :
    2 ≤ a.toNat ∧ a.toNat ≤ 0x0D := by
  by_contra hro
  exact h (by rw [writeIndex_of_ro (by omega)])

/-- Which transactions change the configuration, and which of its fields. -/
theorem transact_changes_configuration {op : HostOp} {s t : State} (h : transact op s = .next t) :
    t.params = s.params ∧
      (t.rw ≠ s.rw → (∃ a d, op = .regWrite a d ∧ 2 ≤ a.toNat ∧ a.toNat ≤ 0x0D) ∨ op = .reset) ∧
      (t.pix ≠ s.pix → (∃ x y p, op = .pixWrite x y p) ∨ op = .pixRelease) := by
  rcases transact_cases h with ⟨a, -, rfl⟩ | ⟨d, -, hd⟩ | ⟨a, d, rfl, -, rfl⟩ | ⟨k, u, f, -, rfl⟩ |
    ⟨x, y, p, rfl, rfl⟩ | ⟨rfl, rfl⟩ | ⟨rfl, rfl⟩
  · exact ⟨rfl, absurd rfl, absurd rfl⟩
  · obtain ⟨hparams, hrw, hpix⟩ := issue_keeps_configuration hd
    exact ⟨hparams, absurd hrw, absurd hpix⟩
  · exact ⟨writeIndex_params a d s, fun hrw => .inl ⟨a, d, rfl, index_of_writeIndex_rw_ne hrw⟩,
      absurd (writeIndex_pix a d s)⟩
  · exact ⟨rfl, absurd rfl, absurd rfl⟩
  · exact ⟨rfl, absurd rfl, fun _ => .inl ⟨x, y, p, rfl⟩⟩
  · exact ⟨rfl, absurd rfl, fun _ => .inr rfl⟩
  · exact ⟨rfl, fun _ => .inr rfl, absurd rfl⟩

/-- Settles O54: an idle step changes nothing, any other is a transaction. -/
theorem onlyTheHostChangesTheConfiguration : Obligations.OnlyTheHostChangesTheConfiguration := by
  intro s t h
  rcases step_cases h with rfl | ⟨op, rest, hs, ht⟩
  · exact ⟨rfl, absurd rfl, absurd rfl⟩
  · rw [hs]
    simpa only [List.head?_cons, Option.some.injEq] using transact_changes_configuration ht

end Sys2Proof.Machine
end

section
/-! SUPPORT. The errors a command ends in (60_exceptions.md): the failing checks of `CELL` and `FRAME`, the code
every word leaves in `LAST`, and what an error leaves unchanged. -/

namespace Sys2Proof.Machine

/-! ### An error, seen from its outcome -/

theorem endsIn_of_eq_raise {e : ErrCode} {s : State} {o : Host.Outcome State Fault Refusal}
    (h : o = .next (raise e s)) : EndsIn e s o :=
  h ▸ endsIn_raise e s

theorem exists_last_and_sticky_of_endsIn {e : ErrCode} {s : State} {o : Host.Outcome State Fault Refusal} :
    EndsIn e s o →
      ∃ t, o = .next t ∧ statusLast t.status = BitVec.ofNat 3 e.code ∧ t.status.getLsbD e.stickyBit = true :=
  fun ⟨t, ht, ⟨hlast, _, hsticky, _⟩, _⟩ => ⟨t, ht, hlast, hsticky⟩

/-! ### The failing checks -/

theorem cellInRange_eq_false_iff (r : RwRegs) :
    cellInRange r = false ↔ r.cfgH.toNat ≤ r.row.toNat ∨ r.cfgW.toNat ≤ r.col.toNat := by
  simp only [cellInRange, Bool.and_eq_false_iff, decide_eq_false_iff_not, not_lt]

theorem frameDimsOk_eq_false_iff (p : Config.Params) (r : RwRegs) :
    frameDimsOk p r = false ↔
      p.frameDimcheck = true ∧ (r.imgW.toNat ≠ scaledW p r ∨ r.imgH.toNat ≠ scaledH p r) := by
  simp only [frameDimsOk, Bool.or_eq_false_iff, Bool.not_eq_false', Bool.and_eq_false_iff, decide_eq_false_iff_not,
    ne_eq]

theorem endsIn_rangeErr {s : State} (hv : cfgValid s.params s.rw = true)
    (h : s.rw.cfgH.toNat ≤ s.rw.row.toNat ∨ s.rw.cfgW.toNat ≤ s.rw.col.toNat) :
    EndsIn .rangeErr s (exec .cell s) :=
  endsIn_of_eq_raise (exec_cell_outside hv ((cellInRange_eq_false_iff _).2 h))

theorem endsIn_dimErr {s : State} (hc : s.params.frameDimcheck = true) (hv : cfgValid s.params s.rw = true)
    (h : s.rw.imgW.toNat ≠ scaledW s.params s.rw ∨ s.rw.imgH.toNat ≠ scaledH s.params s.rw) :
    EndsIn .dimErr s (exec .frame s) :=
  endsIn_of_eq_raise (exec_frame_dims hv ((frameDimsOk_eq_false_iff _ _).2 ⟨hc, h⟩))

/-- Settles O28: the range check is the second of `CELL`; in the example column 1 of a grid one cell wide. -/
theorem cellOutsideTheGridEndsRangeerr : Obligations.CellOutsideTheGridEndsRangeerr :=
  ⟨fun _ hv h => endsIn_rangeErr hv h, fun _ hv hW _ hcol =>
    exists_last_and_sticky_of_endsIn
      (endsIn_rangeErr hv (.inr (congrArg BitVec.toNat (hW.trans hcol.symm)).le))⟩

/-- The size of a buffer for one cell: 2 by 4 dots, each three pixels less the last (42_frame.md R200). -/
theorem scaledSize_of_one_cell {p : Config.Params} {r : RwRegs} (hv : cfgValid p r = true) (hW : r.cfgW = 1)
    (hH : r.cfgH = 1) : scaledW p r = 5 ∧ scaledH p r = 11 := by
  obtain ⟨hg, -⟩ := (cfgValid_iff p r).1 hv
  rw [scaledW_eq_cellX0 hg, scaledH_eq_cellY0 hg, hW, hH]
  exact ⟨congrArg (· + 5) (Nat.zero_mul _), congrArg (· + 11) (Nat.zero_mul _)⟩

/-- Settles O40: the size check is the second of `FRAME`; in the example the buffer is 4 wide and the grid 5. -/
theorem frameOnAnotherSizeEndsDimerr : Obligations.FrameOnAnotherSizeEndsDimerr := by
  refine ⟨fun s hc hv h => endsIn_dimErr hc hv h, fun s hp hv hW hH himg => ?_⟩
  obtain ⟨hw, hh⟩ := scaledSize_of_one_cell hv hW hH
  have hdims : s.rw.imgW.toNat ≠ scaledW s.params s.rw := by
    rw [hw, himg]
    decide
  have hc : s.params.frameDimcheck = true := congrArg Config.Params.frameDimcheck hp
  exact ⟨hw, hh, exists_last_and_sticky_of_endsIn (endsIn_dimErr hc hv (.inl hdims))⟩

/-! ### Any word: an error or a completion -/

/-- A word that leaves `LAST` ≠ 0 raised (60_exceptions.md R225). -/
theorem issue_raised {d : Word} {s t : State} (h : issue d s = .next t) (hl : statusLast t.status ≠ 0) :
    ∃ e, t = raise e s := by
  cases hd : decode d with
  | ok i => exact exec_raised ((issue_ok hd s).symm.trans h) hl
  | illegal why => exact ⟨_, Host.Outcome.next.inj (h.symm.trans (issue_illegal hd s))⟩

/-- Settles O44: such a word raised, and `raise` writes `STATUS` only. -/
theorem raisingCommandWritesStatusOnly : Obligations.RaisingCommandWritesStatusOnly := by
  intro d s t h hl
  obtain ⟨e, rfl⟩ := issue_raised h hl
  exact ⟨rfl, e, raised_statusRaise e s.status⟩

/-- A cell-encoder word completes without a degenerate dot (40_cell_encoder.md R138). -/
theorem issue_cellEncoder_completed {d : Word} {i : Instr} {s t : State} (hd : decode d = .ok i)
    (hi : i ∉ [Instr.sample, Instr.cell, Instr.frame]) (h : issue d s = .next t) :
    Completed false s.status t.status := by
  obtain ⟨v, m, hexec⟩ := exec_cellEncoder hi s
  obtain rfl := Host.Outcome.next.inj (h.symm.trans ((issue_ok hd s).trans hexec))
  exact completed_statusComplete false s.status

/-- Settles O43: every word raises or completes, and `LAST` tells the two apart. -/
theorem everyCommandRaisesOrCompletes : Obligations.EveryCommandRaisesOrCompletes := by
  intro d s
  rcases issue_cases d s with ⟨e, h⟩ | ⟨g, _, _, _, _, _, h⟩
  · have hl : statusLast (raise e s).status ≠ 0 := (statusLast_statusRaise e _).trans_ne (errCode_ne_zero e)
    exact ⟨_, h, .inr ⟨hl, e, endsIn_of_eq_raise h⟩, fun i hd hi => issue_cellEncoder_completed hd hi h⟩
  · have hg : Completed g s.status (statusComplete g s.status) := completed_statusComplete g s.status
    exact ⟨_, h, .inl ⟨hg.1, g, hg⟩, fun i hd hi => issue_cellEncoder_completed hd hi h⟩

/-! ### The code in `LAST` -/

theorem lastCode_statusRaise (e : ErrCode) (w : Word) : (statusLast (statusRaise e w)).toNat = e.code := by
  rw [statusLast_statusRaise]
  cases e <;> rfl

theorem lastCode_statusComplete (g : Bool) (w : Word) : (statusLast (statusComplete g w)).toNat = 0 :=
  congrArg BitVec.toNat (statusLast_statusComplete g w)

/-- The code a command leaves in `LAST`, by its checks in their order (60_exceptions.md R231). -/
theorem exec_last (i : Instr) (s : State) :
    ∃ t, exec i s = .next t ∧ (statusLast t.status).toNat =
      if (i = .sample ∨ i = .cell ∨ i = .frame) ∧ cfgValid s.params s.rw = false then 2
      else if i = .cell ∧ cellInRange s.rw = false then 4
      else if i = .frame ∧ frameDimsOk s.params s.rw = false then 3
      else 0 := by
  cases i with
  | tostd m => exact ⟨_, exec_tostd m s, lastCode_statusComplete _ _⟩
  | toint m => exact ⟨_, exec_toint m s, lastCode_statusComplete _ _⟩
  | glyph m => exact ⟨_, exec_glyph m s, lastCode_statusComplete _ _⟩
  | dotbit p => exact ⟨_, exec_dotbit p s, lastCode_statusComplete _ _⟩
  | sample =>
    cases hv : cfgValid s.params s.rw with
    | false => exact ⟨_, exec_sample_invalid hv, lastCode_statusRaise .cfgErr _⟩
    | true => exact ⟨_, exec_sample_valid hv, lastCode_statusComplete _ _⟩
  | cell =>
    cases hv : cfgValid s.params s.rw with
    | false => exact ⟨_, exec_cell_invalid hv, lastCode_statusRaise .cfgErr _⟩
    | true =>
      cases hr : cellInRange s.rw with
      | false => exact ⟨_, exec_cell_outside hv hr, lastCode_statusRaise .rangeErr _⟩
      | true => exact ⟨_, exec_cell_valid hv hr, lastCode_statusComplete _ _⟩
  | frame =>
    cases hv : cfgValid s.params s.rw with
    | false => exact ⟨_, exec_frame_invalid hv, lastCode_statusRaise .cfgErr _⟩
    | true =>
      cases hd : frameDimsOk s.params s.rw with
      | false => exact ⟨_, exec_frame_dims hv hd, lastCode_statusRaise .dimErr _⟩
      | true => exact ⟨_, exec_frame_valid hv hd, lastCode_statusComplete _ _⟩

/-- A word that ends in an error records no degenerate dot: `S_DEGEN` is no error's sticky bit
(60_exceptions.md R221, R224). -/
theorem issue_raised_degen {d : Word} {s t : State} (h : issue d s = .next t) (hl : statusLast t.status ≠ 0) :
    statusLastDegen t.status = false ∧ statusSDegen t.status = statusSDegen s.status := by
  obtain ⟨e, rfl⟩ := issue_raised h hl
  obtain ⟨-, hdegen, -, hkeep⟩ := raised_statusRaise e s.status
  exact ⟨hdegen, hkeep degenStickyBit (by cases e <;> decide)⟩

/-- One word per command (30_encoding.md R104). -/
theorem eq_word_iff {d w : Word} {i j : Instr} (hd : decode d = .ok i) (hj : decode w = .ok j) : d = w ↔ i = j :=
  ⟨fun h => Decoded.ok.inj (hd.symm.trans ((congrArg decode h).trans hj)),
    fun h => (encode_of_decode hd).symm.trans ((congrArg encode h).trans (encode_of_decode hj))⟩

/-- Settles O42: the decoder comes first, then the command's own checks in their order. -/
theorem errorsAreReportedInPriorityOrder : Obligations.ErrorsAreReportedInPriorityOrder := by
  intro d s
  cases hd : decode d with
  | illegal why =>
    have h := issue_illegal hd s
    exact ⟨_, h, lastCode_statusRaise .illCmd s.status, issue_raised_degen h⟩
  | ok i =>
    obtain ⟨t, h, hlast⟩ := exec_last i s
    rw [← issue_ok hd] at h
    refine ⟨t, h, ?_, issue_raised_degen h⟩
    have hsample : d = 0x5000#32 ↔ i = .sample := eq_word_iff hd rfl
    have hcell : d = 0x6000#32 ↔ i = .cell := eq_word_iff hd rfl
    have hframe : d = 0x7000#32 ↔ i = .frame := eq_word_iff hd rfl
    simp only [instr?_ok, reduceCtorEq, if_false, hsample, hcell, hframe, ← cellInRange_eq_false_iff,
      ← frameDimsOk_eq_false_iff]
    exact hlast

end Sys2Proof.Machine
end
